-- ==== Sys2Proof/Word.lean ====
section
/-! DEFINITION. The word types of the block. Every register and every access is 8 bits wide
(`00_scope.md` R6, REGW), a port address is a 16-bit unsigned number (`20_memory.md` R60), the baud
divisor is 16 bits wide (DIVW) and a character code is CHARW = 32 bits wide (D15). -/

namespace Sys2Proof

/-- A byte: the content of a register and the datum of an access (R6 REGW, R7). -/
abbrev Byte := BitVec 8

/-- A port address (R60) and the `base` of a Port (R21). -/
abbrev Port := BitVec 16

/-- The baud divisor, DIVW bits (R6), which `divisor_code` is zero-extended to (R95). -/
abbrev Divisor := BitVec 16

/-- A character code, CHARW bits (R6, D15). -/
abbrev CharCode := BitVec 32

/-- The 3-bit offset of a register in the device window (R91). -/
abbrev Offset := BitVec 3

/-- The 5-bit selector `sel` of R92. -/
abbrev Selector := BitVec 5

end Sys2Proof
end

