-- ==== Sys2Proof/Config.lean ====
section
/-! DEFINITION. What an implementation fixes (`00_scope.md` R6) and the free values of the model.
The three constants without a body are free: nothing in Lean can evaluate them, so a statement that
mentions one holds whatever its value is. DEVBASE and READBACK, the two open parameters that rules
read, are plain data in `State.params`; RESET is the argument of `State.resetWith`. -/

namespace Sys2Proof.Config

/-- Count of port addresses of the block (R6). -/
abbrev NREG : Nat := 8

/-- Width of every register and every access (R6). -/
abbrev REGW : Nat := 8

/-- Width of the baud divisor (R6). -/
abbrev DIVW : Nat := 16

/-- Numerator of the divisor law (R6); no rule computes a rate from it (U22). -/
abbrev BAUD_BASE : Nat := 115200

/-- Width of the character operand (R6, D15). -/
abbrev CHARW : Nat := 32

/-- HAS_FIFO (R6, D27): whether the part is a 16550 or a 16450. Open, and no rule reads it. -/
opaque hasFifo : Bool

/-- `draw()` (R8): the byte the line-side environment supplies at its n-th draw, under no law (R33).
FREE VALUE, log entry 1. -/
opaque freeByte : Nat → Byte

/-- The level of `irq` at a moment at which some interrupt source is armed (R194: a draw at every
moment). FREE VALUE, log entry 2. -/
opaque freeIrq : Nat → Bool

end Sys2Proof.Config
end

