-- ==== Sys2Proof/Syntax.lean ====
section
/-! DEFINITION. The two kinds of instruction of `30_encoding.md` R90: the twenty decoded bus accesses
(R92) and the ten commands (R94). One constructor per row of `spec/opcode_table.json`. -/

namespace Sys2Proof

/-- The direction of a bus access (R91). -/
inductive Dir where
  | read
  | write
  deriving DecidableEq, Repr

/-- The instructions. A bus access carries the byte an agent supplies on a write (R91); the byte of a
read is supplied by the device. A command carries its operands (R94). -/
inductive Instr where
  /-- RBR_RD, R120: read at offset 0 with DLAB = 0. -/
  | rbrRd
  /-- THR_WR, R121: write at offset 0 with DLAB = 0. -/
  | thrWr (data : Byte)
  /-- DLL_RD, R122: read at offset 0 with DLAB = 1. -/
  | dllRd
  /-- DLL_WR, R123: write at offset 0 with DLAB = 1. -/
  | dllWr (data : Byte)
  /-- IER_RD, R124: read at offset 1 with DLAB = 0. -/
  | ierRd
  /-- IER_WR, R125: write at offset 1 with DLAB = 0. -/
  | ierWr (data : Byte)
  /-- DLM_RD, R126: read at offset 1 with DLAB = 1. -/
  | dlmRd
  /-- DLM_WR, R127: write at offset 1 with DLAB = 1. -/
  | dlmWr (data : Byte)
  /-- IIR_RD, R128: read at offset 2. -/
  | iirRd
  /-- FCR_WR, R129: write at offset 2. -/
  | fcrWr (data : Byte)
  /-- LCR_RD, R130: read at offset 3. -/
  | lcrRd
  /-- LCR_WR, R131: write at offset 3. -/
  | lcrWr (data : Byte)
  /-- MCR_RD, R132: read at offset 4. -/
  | mcrRd
  /-- MCR_WR, R133: write at offset 4. -/
  | mcrWr (data : Byte)
  /-- LSR_RD, R134: read at offset 5. -/
  | lsrRd
  /-- LSR_WR, R135 (reserved): write at offset 5. -/
  | lsrWr (data : Byte)
  /-- MSR_RD, R136: read at offset 6. -/
  | msrRd
  /-- MSR_WR, R137 (reserved): write at offset 6. -/
  | msrWr (data : Byte)
  /-- SCR_RD, R138: read at offset 7. -/
  | scrRd
  /-- SCR_WR, R139: write at offset 7. -/
  | scrWr (data : Byte)
  /-- construct, R150. -/
  | construct (baseAddress : Port)
  /-- initialize, R151. -/
  | initializePort
  /-- set_fifo_options, R152. -/
  | setFifoOptions (options : Byte)
  /-- set_interrupt_mask, R153. -/
  | setInterruptMask (mask : Byte)
  /-- set_divisor_speed, R154. The type admits every 16-bit code; 1, 2 and 3 are enumerated (D12). -/
  | setDivisorSpeed (code : Divisor)
  /-- set_line_options, R155. The type admits every parity byte; five codes are enumerated (D13). -/
  | setLineOptions (dataBits : Byte) (stopBits : Bool) (parity : Byte)
  /-- packet_received, R170. -/
  | packetReceived
  /-- transmit_empty, R171. -/
  | transmitEmpty
  /-- write_char, R172. -/
  | writeChar (c : CharCode)
  /-- write_str, R173: a finite sequence of character codes. -/
  | writeStr (s : List CharCode)
  deriving DecidableEq, Repr

/-- How a bus access looks on the bus: direction, offset, the byte of a write, and the value of the
mode bit that the row's pattern fixes (`none` where the mask ignores DLAB), R92. -/
structure BusForm where
  dir   : Dir
  off   : Offset
  latch : Option Bool
  data  : Byte
  deriving DecidableEq, Repr

end Sys2Proof
end

