-- ==== Sys2Proof/Decode.lean ====
section
/-! DEFINITION. Decoding and encoding. The spec gives two patterns, the 5-bit selector of a bus access
(`30_encoding.md` R92) and the 4-bit code of a command (R94); operands are "not part of the pattern"
(R101). The byte image around the patterns is the model's own (DESIGN CHOICE, log entry 3): the head
byte is `001 sel` for a bus access and `0100 op` for a command, the operand bytes follow, the low byte
of a wider operand first. -/

namespace Sys2Proof

/-- Why an image is no instruction. -/
inductive DecodeError where
  /-- No byte at all. -/
  | emptyImage
  /-- The head byte carries neither format tag. -/
  | unknownFormat
  /-- A command code 10 to 15, which spells no command (R94). -/
  | noCommand
  /-- Operand bytes are missing or left over. -/
  | badLength
  /-- A boolean operand byte other than 0 and 1. -/
  | badBoolean
  /-- A character marker other than 0 and 1. -/
  | badMarker
  /-- A bus access where a command is to be issued. -/
  | notACommand
  deriving DecidableEq, Repr

/-! ### Bus accesses (R92) -/

/-- `sel = W : off : D` (R92, R140). -/
def selector (dir : Dir) (off : Offset) (dlab : Bool) : Selector :=
  BitVec.ofBool (dir = .write) ++ off ++ BitVec.ofBool dlab

/-- One row of the table of R92: the pattern and the mask over the selector. -/
structure BusRow where
  pattern : Selector
  mask    : Selector
  deriving DecidableEq, Repr

/-- `sel & mask == match` (R101). -/
def BusRow.accepts (r : BusRow) (sel : Selector) : Bool := sel &&& r.mask == r.pattern

/-- The row of R92 that an access form belongs to: the pattern is its selector, and the mask leaves DLAB
out where the form does not depend on it. -/
def BusForm.row (f : BusForm) : BusRow :=
  match f.latch with
  | some dlab => ⟨selector f.dir f.off dlab, 0x1F#5⟩
  | none => ⟨selector f.dir f.off false, 0x1E#5⟩

/-- The twenty rows of R92, in the table's order. -/
def busTable : List BusRow :=
  [⟨0x00, 0x1F⟩, ⟨0x10, 0x1F⟩, ⟨0x01, 0x1F⟩, ⟨0x11, 0x1F⟩, ⟨0x02, 0x1F⟩, ⟨0x12, 0x1F⟩,
   ⟨0x03, 0x1F⟩, ⟨0x13, 0x1F⟩, ⟨0x04, 0x1E⟩, ⟨0x14, 0x1E⟩] ++
  [⟨0x06, 0x1E⟩, ⟨0x16, 0x1E⟩, ⟨0x08, 0x1E⟩, ⟨0x18, 0x1E⟩, ⟨0x0A, 0x1E⟩, ⟨0x1A, 0x1E⟩,
   ⟨0x0C, 0x1E⟩, ⟨0x1C, 0x1E⟩, ⟨0x0E, 0x1E⟩, ⟨0x1E, 0x1E⟩]

/-- The one row of R92 whose `sel & mask == match`; the rows cover every selector, so the last needs no
test. `data` is the byte of a write. -/
def decodeSel (sel : Selector) (data : Byte) : Instr :=
  if sel &&& 0x1F#5 = 0x00#5 then .rbrRd
  else if sel &&& 0x1F#5 = 0x10#5 then .thrWr data
  else if sel &&& 0x1F#5 = 0x01#5 then .dllRd
  else if sel &&& 0x1F#5 = 0x11#5 then .dllWr data
  else if sel &&& 0x1F#5 = 0x02#5 then .ierRd
  else if sel &&& 0x1F#5 = 0x12#5 then .ierWr data
  else if sel &&& 0x1F#5 = 0x03#5 then .dlmRd
  else if sel &&& 0x1F#5 = 0x13#5 then .dlmWr data
  else if sel &&& 0x1E#5 = 0x04#5 then .iirRd
  else if sel &&& 0x1E#5 = 0x14#5 then .fcrWr data
  else if sel &&& 0x1E#5 = 0x06#5 then .lcrRd
  else if sel &&& 0x1E#5 = 0x16#5 then .lcrWr data
  else if sel &&& 0x1E#5 = 0x08#5 then .mcrRd
  else if sel &&& 0x1E#5 = 0x18#5 then .mcrWr data
  else if sel &&& 0x1E#5 = 0x0A#5 then .lsrRd
  else if sel &&& 0x1E#5 = 0x1A#5 then .lsrWr data
  else if sel &&& 0x1E#5 = 0x0C#5 then .msrRd
  else if sel &&& 0x1E#5 = 0x1C#5 then .msrWr data
  else if sel &&& 0x1E#5 = 0x0E#5 then .scrRd
  else .scrWr data

/-- The signals of a bus access, `none` for a command (R91, R92). -/
def Instr.busForm : Instr → Option BusForm
  | .rbrRd => some ⟨.read, 0, some false, 0⟩
  | .thrWr d => some ⟨.write, 0, some false, d⟩
  | .dllRd => some ⟨.read, 0, some true, 0⟩
  | .dllWr d => some ⟨.write, 0, some true, d⟩
  | .ierRd => some ⟨.read, 1, some false, 0⟩
  | .ierWr d => some ⟨.write, 1, some false, d⟩
  | .dlmRd => some ⟨.read, 1, some true, 0⟩
  | .dlmWr d => some ⟨.write, 1, some true, d⟩
  | .iirRd => some ⟨.read, 2, none, 0⟩
  | .fcrWr d => some ⟨.write, 2, none, d⟩
  | .lcrRd => some ⟨.read, 3, none, 0⟩
  | .lcrWr d => some ⟨.write, 3, none, d⟩
  | .mcrRd => some ⟨.read, 4, none, 0⟩
  | .mcrWr d => some ⟨.write, 4, none, d⟩
  | .lsrRd => some ⟨.read, 5, none, 0⟩
  | .lsrWr d => some ⟨.write, 5, none, d⟩
  | .msrRd => some ⟨.read, 6, none, 0⟩
  | .msrWr d => some ⟨.write, 6, none, d⟩
  | .scrRd => some ⟨.read, 7, none, 0⟩
  | .scrWr d => some ⟨.write, 7, none, d⟩
  | .construct _ => none
  | .initializePort => none
  | .setFifoOptions _ => none
  | .setInterruptMask _ => none
  | .setDivisorSpeed _ => none
  | .setLineOptions _ _ _ => none
  | .packetReceived => none
  | .transmitEmpty => none
  | .writeChar _ => none
  | .writeStr _ => none

/-- The instruction is one of the ten commands of R94. -/
def Instr.isCommand (i : Instr) : Bool := i.busForm.isNone

/-! ### Byte order of the image (model's own, log entry 3) -/

/-- Sixteen bits from two bytes, low byte first. -/
def le16 (a b : Byte) : BitVec 16 := b ++ a

/-- Thirty-two bits from four bytes, low byte first. -/
def le32 (a b c d : Byte) : BitVec 32 := d ++ c ++ b ++ a

/-- The `k`-th byte of a wider operand, byte 0 the least significant. -/
def byteOf {w : Nat} (v : BitVec w) (k : Nat) : Byte := v.extractLsb' (8 * k) 8

/-! ### Decoding -/

/-- The characters of write_str: each is a marker byte 1 and four bytes, a marker byte 0 ends them. -/
def decodeChars : List Byte → Except DecodeError (List CharCode)
  | [] => .error .badLength
  | m :: a :: b :: c :: d :: more =>
    if m = 1#8 then (decodeChars more).map (le32 a b c d :: ·)
    else if m = 0#8 then .error .badLength else .error .badMarker
  | m :: rest =>
    if m = 0#8 then (if rest.isEmpty then .ok [] else .error .badLength)
    else if m = 1#8 then .error .badLength else .error .badMarker

/-- A boolean operand byte. -/
def decodeBool (b : Byte) : Except DecodeError Bool :=
  if b = 0#8 then .ok false else if b = 1#8 then .ok true else .error .badBoolean

/-- A command without operands. -/
def decodeNone (i : Instr) : List Byte → Except DecodeError Instr
  | [] => .ok i
  | _ => .error .badLength

/-- A command with one byte operand. -/
def decodeByte (f : Byte → Instr) : List Byte → Except DecodeError Instr
  | [a] => .ok (f a)
  | _ => .error .badLength

/-- A command with one 16-bit operand. -/
def decodeHalf (f : BitVec 16 → Instr) : List Byte → Except DecodeError Instr
  | [a, b] => .ok (f (le16 a b))
  | _ => .error .badLength

/-- The operands of set_line_options. -/
def decodeLine : List Byte → Except DecodeError Instr
  | [d, st, p] => (decodeBool st).map (.setLineOptions d · p)
  | _ => .error .badLength

/-- The operand of write_char. -/
def decodeChar : List Byte → Except DecodeError Instr
  | [a, b, c, d] => .ok (.writeChar (le32 a b c d))
  | _ => .error .badLength

/-- A command by its code `op` (R94). -/
def decodeCommand (op : BitVec 4) (operands : List Byte) : Except DecodeError Instr :=
  if op = 0#4 then decodeHalf .construct operands
  else if op = 1#4 then decodeNone .initializePort operands
  else if op = 2#4 then decodeByte .setFifoOptions operands
  else if op = 3#4 then decodeByte .setInterruptMask operands
  else if op = 4#4 then decodeHalf .setDivisorSpeed operands
  else if op = 5#4 then decodeLine operands
  else if op = 6#4 then decodeNone .packetReceived operands
  else if op = 7#4 then decodeNone .transmitEmpty operands
  else if op = 8#4 then decodeChar operands
  else if op = 9#4 then (decodeChars operands).map .writeStr
  else .error .noCommand

/-- A bus access by its selector: a write has one operand byte, a read has none. -/
def decodeBus (sel : Selector) (operands : List Byte) : Except DecodeError Instr :=
  if sel.getLsbD 4 then decodeByte (decodeSel sel) operands
  else decodeNone (decodeSel sel 0#8) operands

/-- The instruction of a whole image; total, and every image that is none is rejected by name. -/
def decode : List Byte → Except DecodeError Instr
  | [] => .error .emptyImage
  | head :: operands =>
    if head.extractLsb' 5 3 = 0b001#3 then decodeBus (head.extractLsb' 0 5) operands
    else if head.extractLsb' 4 4 = 0b0100#4 then decodeCommand (head.extractLsb' 0 4) operands
    else .error .unknownFormat

/-! ### Encoding, from the tables of R92 and R94 -/

/-- Head byte of a bus access. -/
def busHead (sel : Selector) : Byte := 0b001#3 ++ sel

/-- Head byte of a command. -/
def cmdHead (op : BitVec 4) : Byte := 0b0100#4 ++ op

/-- The image of a sequence of characters. -/
def encodeChars : List CharCode → List Byte
  | [] => [0#8]
  | c :: cs => 1#8 :: byteOf c 0 :: byteOf c 1 :: byteOf c 2 :: byteOf c 3 :: encodeChars cs

/-- The byte image of an instruction; a row whose mask ignores DLAB is written with that bit 0. -/
def encode : Instr → List Byte
  | .rbrRd => [busHead 0x00]
  | .thrWr d => [busHead 0x10, d]
  | .dllRd => [busHead 0x01]
  | .dllWr d => [busHead 0x11, d]
  | .ierRd => [busHead 0x02]
  | .ierWr d => [busHead 0x12, d]
  | .dlmRd => [busHead 0x03]
  | .dlmWr d => [busHead 0x13, d]
  | .iirRd => [busHead 0x04]
  | .fcrWr d => [busHead 0x14, d]
  | .lcrRd => [busHead 0x06]
  | .lcrWr d => [busHead 0x16, d]
  | .mcrRd => [busHead 0x08]
  | .mcrWr d => [busHead 0x18, d]
  | .lsrRd => [busHead 0x0A]
  | .lsrWr d => [busHead 0x1A, d]
  | .msrRd => [busHead 0x0C]
  | .msrWr d => [busHead 0x1C, d]
  | .scrRd => [busHead 0x0E]
  | .scrWr d => [busHead 0x1E, d]
  | .construct b => [cmdHead 0, byteOf b 0, byteOf b 1]
  | .initializePort => [cmdHead 1]
  | .setFifoOptions o => [cmdHead 2, o]
  | .setInterruptMask m => [cmdHead 3, m]
  | .setDivisorSpeed c => [cmdHead 4, byteOf c 0, byteOf c 1]
  | .setLineOptions d st p => [cmdHead 5, d, if st then 1#8 else 0#8, p]
  | .packetReceived => [cmdHead 6]
  | .transmitEmpty => [cmdHead 7]
  | .writeChar c => [cmdHead 8, byteOf c 0, byteOf c 1, byteOf c 2, byteOf c 3]
  | .writeStr s => cmdHead 9 :: encodeChars s

/-! ### Words of the opcode table -/

/-- How many operand bytes the shortest image with this head has. -/
def operandCount (head : Byte) : Nat :=
  if head.extractLsb' 5 3 = 0b001#3 then (if head.getLsbD 4 then 1 else 0)
  else if head.extractLsb' 4 4 = 0b0100#4 then
    [2, 0, 1, 1, 2, 3, 0, 0, 4, 1].getD (head.extractLsb' 0 4).toNat 0
  else 0

/-- The head byte of a table word. The table gives its two formats overlapping numbers: 0x00 to 0x09
are both a selector and a command code. A word of 4 bits is a command and one of 5 bits a bus access;
in a word of 8 bits the numbers 0 to 9 are read as commands and the other selectors as bus accesses
(DESIGN CHOICE, log entry 4). A byte that already carries a format tag stands as it is. -/
def tableHead (nbits w : Nat) : Byte :=
  let b := BitVec.ofNat 8 w
  if nbits = 4 then cmdHead (b.extractLsb' 0 4)
  else if nbits = 5 then busHead (b.extractLsb' 0 5)
  else if b.toNat < 10 then cmdHead (b.extractLsb' 0 4)
  else if b.toNat < 32 then busHead (b.extractLsb' 0 5)
  else b

/-- The image of a table word: its head byte and the operand bytes, taken from the bits above. -/
def tableImage (nbits w : Nat) : List Byte :=
  let head := tableHead nbits w
  head :: (List.range (operandCount head)).map fun k => BitVec.ofNat 8 (w >>> (8 * (k + 1)))

/-- The instruction the decoder reads from a word numbered as the opcode table numbers it. -/
def decodeTableWord (nbits w : Nat) : Option Instr := (decode (tableImage nbits w)).toOption

end Sys2Proof
end

