-- ==== Sys2Proof/Machine/State.lean ====
section
/-! DEFINITION. The state of the block (`10_state.md`), as plain data: the stored registers, the Port,
the sequencer's step pointer, the logs; beside them what the model holds of the agents outside the
block (`00_scope.md` R11): the line-side environment's answers and the queue of what hosts and other
agents issue. -/

namespace Sys2Proof.Machine

/-! ### Logs (R32) -/

/-- An entry `(dir, offset, DLAB-at-the-time, byte)` of BUSLOG (R32). -/
structure BusEntry where
  dir  : Dir
  off  : Offset
  dlab : Bool
  data : Byte
  deriving DecidableEq, Repr

/-! ### The sequencer (R22) -/

/-- The step labels of R22. -/
inductive Label where
  | M1 | S1 | S2 | S3 | S4 | S5 | L1 | F1 | P1 | T1 | W1 | W2 | X0
  deriving DecidableEq, Repr

/-- A command in progress, with its operands (R22 `cmd`). construct is not among them: it has no
micro-step (R150). -/
inductive Command where
  | initializePort
  | setFifoOptions (options : Byte)
  | setInterruptMask (mask : Byte)
  | setDivisorSpeed (code : Divisor)
  | setLineOptions (dataBits : Byte) (stopBits : Bool) (parity : Byte)
  | packetReceived
  | transmitEmpty
  | writeChar (c : CharCode)
  | writeStr (s : List CharCode)
  deriving DecidableEq, Repr

/-- The record of a Busy sequencer (R22). -/
structure Busy where
  /-- The command and its operands. -/
  cmd : Command
  /-- The step label. -/
  pc  : Label
  /-- Saved line-control value (set_divisor_speed). -/
  v   : Byte
  /-- Last line-status sample (polls). -/
  s   : Byte
  /-- Index of the next character (write_str). -/
  i   : Nat
  deriving DecidableEq, Repr

/-- `x[SEQ]` (R22). -/
inductive Seq where
  | idle
  | busy (b : Busy)
  deriving DecidableEq, Repr

/-- What `done` hands to the host (R8, R174 (e)): nothing, a Port (construct), a boolean. -/
inductive CmdResult where
  | nothing
  | port (base : Port)
  | flag (b : Bool)
  deriving DecidableEq, Repr

/-! ### Parameters (R6) -/

/-- DEVBASE (R62, D9). -/
inductive DevBase where
  /-- The default `DEVBASE = base`: the device stands where the first Port was constructed. -/
  | atPort
  /-- The device stands at this base, any 16-bit number (R6; above 0xFFF8 see log entry 21). -/
  | fixed (b : Port)
  /-- No UART is present. -/
  | absent
  deriving DecidableEq, Repr

/-- READBACK (D4). -/
inductive Readback where
  | draw
  | stored
  deriving DecidableEq, Repr

/-- The open parameters that rules read; no step changes them (log entry 15). -/
structure Params where
  devBase  : DevBase
  readback : Readback
  deriving DecidableEq, Repr

/-- RESET (R34, D7): the stored registers before the first access. -/
structure Reset where
  lcr : Byte
  dll : Byte
  dlm : Byte
  ier : Byte
  fcr : Byte
  deriving DecidableEq, Repr

/-! ### The agents outside the block -/

/-- The line-side environment (R33): the bytes it will answer the next draws with. When the listed
answers are used up, the n-th draw is the free value `Config.freeByte n`. -/
structure Env where
  /-- The next answers, the first one first. -/
  answers : List Byte
  /-- How many draws have been made. -/
  drawn   : Nat
  /-- Which moment it is: steps taken so far (R194: irq is a draw at every moment). -/
  moment  : Nat
  deriving DecidableEq, Repr

/-- A bus access as an agent performs it (R91): `extra` counts the bytes beyond the first, so an access
wider than a byte has `extra > 0` (R65). `data` is the byte of a write. -/
structure BusAccess where
  dir   : Dir
  addr  : Port
  data  : Byte
  extra : Nat
  deriving DecidableEq, Repr

/-- What an agent issues: a command on the Port, as a byte image, or a bus access (R90). -/
inductive Issue where
  | command (image : List Byte)
  | access (a : BusAccess)
  deriving DecidableEq, Repr

/-- Who issues (R11): the host, which is one thread of control with the sequencer and waits until it is
idle; or another agent, which waits for nobody (R199 (b)). -/
inductive Agent where
  | host
  | other
  deriving DecidableEq, Repr

/-- The next thing that happens at the block's interface: an agent issues something, or the sequencer
has its turn. The list of events fixes how agents interleave (R69 (c); log
entry 13). -/
inductive Event where
  | issue (who : Agent) (what : Issue)
  | turn
  deriving DecidableEq, Repr

/-! ### Outcomes -/

/-- The block raises no exception (R190). -/
inductive Fault where
  /-- Raised by the sequencer's step when it is Busy with no Port, or at a label that is none of its
  command's (R22 lists each command's labels). No run reaches such a state. Safe, log entry 20. -/
  | strayStep
  deriving DecidableEq, Repr

/-- The refusals. -/
inductive Refusal where
  /-- An instruction without a meaning yet; raised by exec alone. Safe. -/
  | notModelled (mnemonic : String)
  /-- R192: construct with a base above 0xFFF8. Safe (D8). -/
  | baseOutOfRange
  /-- R192: an access wider than one byte touches the window. Safe (D10). -/
  | wideAccess
  /-- R192: a divisor or parity code outside its table. Safe (D12, D13). -/
  | notEnumerated
  /-- R192: a command issued while the sequencer is Busy. Safe (D18). -/
  | reentrant
  /-- A command other than construct issued before any Port exists (R94: it takes the Port it is issued
  on; R221: no Port exists until construct). Safe, log entry 8. -/
  | noPort
  /-- An issued image that is no command. Safe, log entry 3. -/
  | undecodable (why : DecodeError)
  deriving DecidableEq, Repr

/-! ### The state -/

/-- The state of the machine. -/
structure State where
  /-- `x[LCR]`, line control (R23); bit 7 is DLAB (R24). -/
  lcr      : Byte
  /-- `x[DLL]`, divisor latch low byte (R25). -/
  dll      : Byte
  /-- `x[DLM]`, divisor latch high byte (R25). -/
  dlm      : Byte
  /-- `x[IER]`, interrupt enable (R26). -/
  ier      : Byte
  /-- `x[FCR]`, shadow of FIFO control (R27). -/
  fcr      : Byte
  /-- `base` of the Port, none until construct (R21, R34). -/
  base     : Option Port
  /-- The base of the first construct, where the default `DEVBASE = base` puts the device (log entry 7). -/
  home     : Option Port
  /-- `x[INIT]` (R35). -/
  init     : Bool
  /-- `x[SEQ]` (R22). -/
  seq      : Seq
  /-- The result of the last command that ended (R12). -/
  result   : CmdResult
  /-- The byte the last read returned to its agent (R91; log entry 6). -/
  readData : Byte
  /-- `x[BUSLOG]` (R32). -/
  busLog   : List BusEntry
  /-- `x[TXLOG]` (R32). -/
  txLog    : List Byte
  /-- The line-side environment (R33). -/
  env      : Env
  /-- What hosts and other agents do next, in order (R11, R69). -/
  events   : List Event
  /-- DEVBASE and READBACK (R6). -/
  params   : Params
  deriving DecidableEq, Repr

/-- The defaults of R6: `DEVBASE = base`, `READBACK = draw`. -/
def Params.default : Params := ⟨.atPort, .draw⟩

/-- The state at the start of a run for a given RESET (R34, R220, R221). -/
def State.resetWith (r : Reset) : State where
  lcr := r.lcr
  dll := r.dll
  dlm := r.dlm
  ier := r.ier
  fcr := r.fcr
  base := none
  home := none
  init := false
  seq := .idle
  result := .nothing
  readData := 0#8
  busLog := []
  txLog := []
  env := ⟨[], 0, 0⟩
  events := []
  params := Params.default

/-- The RESET of `State.reset`. The spec leaves every byte of it open (R34); zero is DESIGN CHOICE, log
entry 5. -/
def Reset.chosen : Reset := ⟨0#8, 0#8, 0#8, 0#8, 0#8⟩

/-- The machine right after reset. -/
def State.reset : State := State.resetWith Reset.chosen

end Sys2Proof.Machine
end

