-- ==== Sys2Proof/Machine/Flags.lean ====
section
/-! DEFINITION. The mode bit DLAB (`10_state.md` R24), the interrupt-enable fields (R26), the interrupt
request (`60_exceptions.md` R194) and the views of stored state that no instruction computes. The two
line-status flags (R28) are tests of the byte a read returned: `isDataReady` and `isTransmitEmpty` of
Operands. -/

namespace Sys2Proof.Machine

/-- `DLAB = x[LCR][7]` (R24). -/
def State.dlab (s : State) : Bool := s.lcr[7]

/-- `DIV = x[DLM]:x[DLL]` (R25). -/
def State.divisor (s : State) : Divisor := s.dlm ++ s.dll

/-- The four interrupt sources (R193). -/
inductive IrqSource where
  | dataAvailable
  | transmitterEmpty
  | breakOrError
  | statusChange
  deriving DecidableEq, Repr

/-- The bit of IER that arms a source. The order is the spec's, the positions are PRESUMED (R26's table,
general knowledge), log entry 9. -/
def IrqSource.bit : IrqSource → Nat
  | .dataAvailable => 0
  | .transmitterEmpty => 1
  | .breakOrError => 2
  | .statusChange => 3

/-- The source is armed (R26, R193). -/
def State.armed (s : State) (src : IrqSource) : Bool := s.ier.getLsbD src.bit

/-- The block's request to the platform (R194): false while `x[IER] = 0x00`, otherwise a draw at every
moment. -/
def State.irq (s : State) : Bool := s.ier != 0#8 && Config.freeIrq s.env.moment

/-- The sequencer is Busy (R22). -/
def State.isBusy (s : State) : Bool :=
  match s.seq with
  | .idle => false
  | .busy _ => true

end Sys2Proof.Machine
end

