-- ==== Sys2Proof/Machine/Operands.lean ====
section
/-! DEFINITION. Operand assembly (`30_encoding.md` R95), the constant tables (R96) and the arithmetic
laws (`41_configuration.md` R157). Everything here is unsigned; nothing carries or overflows. -/

namespace Sys2Proof.Machine

/-! ### Constant tables (R96) -/

/-- COM1 (R96). -/
def com1 : Port := 0x3F8#16
/-- COM2 (R96). -/
def com2 : Port := 0x2F8#16
/-- COM3 (R96). -/
def com3 : Port := 0x3E8#16
/-- COM4 (R96). -/
def com4 : Port := 0x2E8#16

/-- Offset of `data_dlab_lsb` (R96). -/
def offData : Offset := 0#3
/-- Offset of `interrupt_dlab_msb` (R96). -/
def offInterrupt : Offset := 1#3
/-- Offset of `interrupt_ident_fifo` (R96). -/
def offIdentFifo : Offset := 2#3
/-- Offset of `line_control` (R96). -/
def offLineControl : Offset := 3#3
/-- Offset of `modem_control` (R96). -/
def offModemControl : Offset := 4#3
/-- Offset of `line_status` (R96). -/
def offLineStatus : Offset := 5#3
/-- Offset of `modem_status` (R96). -/
def offModemStatus : Offset := 6#3
/-- Offset of `scratch` (R96). -/
def offScratch : Offset := 7#3

/-- Mask of the divisor-latch-access bit (R96). -/
def dlabMask : Byte := 0x80#8
/-- Its complement (R96). -/
def dlabClearMask : Byte := 0x7F#8
/-- Mask of data-ready (R96). -/
def dataReadyMask : Byte := 0x01#8
/-- Mask of transmit-empty (R96). -/
def transmitEmptyMask : Byte := 0x20#8

/-- FIFO-control initialisation value (R96). -/
def fifoInit : Byte := 0xC7#8

/-- The divisor code that initialize sets, 38400 baud (R100). -/
def initDivisor : Divisor := 3#16

/-- The interrupt mask that initialize writes (R100). -/
def initMask : Byte := 0x00#8

/-- The baud table: baud rate and divisor code (R96). -/
def baudTable : List (Nat × Divisor) := [(115200, 1#16), (57600, 2#16), (38400, 3#16)]

/-- `code in {1, 2, 3}` (R154). -/
def divisorListed (code : Divisor) : Bool := (baudTable.map Prod.snd).contains code

/-- Parity code None (R96). -/
def parityNone : Byte := 0x00#8
/-- Parity code Odd (R96). -/
def parityOdd : Byte := 0x04#8
/-- Parity code Even (R96). -/
def parityEven : Byte := 0x12#8
/-- Parity code Mark (R96). -/
def parityMark : Byte := 0x14#8
/-- Parity code Space (R96). -/
def paritySpace : Byte := 0x1C#8

/-- The five parity codes (R96). -/
def parityCodes : List Byte := [parityNone, parityOdd, parityEven, parityMark, paritySpace]

/-- `parity in {0x00, 0x04, 0x12, 0x14, 0x1C}` (R155). -/
def parityListed (p : Byte) : Bool := parityCodes.contains p

/-- The largest `base` with which no register address passes 0xFFFF (R61, D8). -/
def maxBase : Nat := 0xFFF8

/-- `base <= 0xFFF8` (R150). -/
def baseInRange (b : Port) : Bool := decide (b.toNat ≤ maxBase)

/-! ### Assembly (R95) -/

/-- Register address `addr(k) = base + k` as a number; the sum is never reduced (R61, R157 (a)). -/
def portAddr (base : Port) (k : Offset) : Nat := base.toNat + k.toNat

/-- Divisor low byte `d[7:0]` (R95). -/
def divisorLow (d : Divisor) : Byte := d.extractLsb' 0 8

/-- Divisor high byte `d[15:8]` (R95). -/
def divisorHigh (d : Divisor) : Byte := d.extractLsb' 8 8

/-- Latch-open value `v | 0x80` (R95). -/
def latchOpen (v : Byte) : Byte := v ||| dlabMask

/-- Latch-close value `v & 0x7F` (R95). -/
def latchClose (v : Byte) : Byte := v &&& dlabClearMask

/-- Stop contribution: `(if stop_bits then 1 else 0) << 1` (R95). -/
def stopContribution (stop : Bool) : Byte := (if stop then 1#8 else 0#8) <<< 1

/-- Line byte `data_bits | sb | parity` (R95; `90_conflicts.md` C1: the union, not the sum). -/
def lineByte (dataBits : Byte) (stop : Bool) (parity : Byte) : Byte :=
  dataBits ||| stopContribution stop ||| parity

/-- The line byte that initialize writes: `set_line_options(7, true, None)` (R100, C1). -/
def initLine : Byte := lineByte 7#8 true parityNone

/-- Character byte `c[7:0]` (R95, R157 (e)). -/
def charByte (c : CharCode) : Byte := c.extractLsb' 0 8

/-- Data-ready test `s & 0x01 != 0` (R95). -/
def isDataReady (s : Byte) : Bool := s &&& dataReadyMask != 0#8

/-- Transmit-empty test `s & 0x20 != 0` (R95). -/
def isTransmitEmpty (s : Byte) : Bool := s &&& transmitEmptyMask != 0#8

end Sys2Proof.Machine
end

