-- ==== Sys2Proof/Machine/Ops.lean ====
section
/-! DEFINITION. The named operations over the state: draws, the logs, the registers, the device window,
and the sequencer's acceptance and end of a command. The block takes no exception and returns from
none (`60_exceptions.md` R190, R196, R197), so there is no such operation here. -/

namespace Sys2Proof.Machine

/-- The outcome of a step of this machine. -/
abbrev Result := Host.Outcome State Fault Refusal

/-- Go on from a next state; a fault or a refusal stays. -/
def Result.andThen (o : Result) (f : State → Result) : Result :=
  match o with
  | .next s => f s
  | .fault e => .fault e
  | .refused e => .refused e

/-! ### Draws (R8, R33) -/

/-- The byte the k-th draw from now on will give, k = 0 the next one. -/
def State.upcoming (s : State) (k : Nat) : Byte :=
  match s.env.answers[k]? with
  | some b => b
  | none => Config.freeByte (s.env.drawn + k)

/-- The bytes the next `n` draws will give. -/
def State.ahead (s : State) (n : Nat) : List Byte := (List.range n).map s.upcoming

/-- The state after `n` draws. -/
def State.afterDraws (s : State) (n : Nat) : State :=
  { s with env := { s.env with answers := s.env.answers.drop n, drawn := s.env.drawn + n } }

/-! ### Logs and the returned byte (R32, R140) -/

/-- `log((R, off, D, byte))`, the byte going to the agent that reads. -/
def State.logRead (s : State) (off : Offset) (b : Byte) : State :=
  { s with readData := b, busLog := s.busLog ++ [⟨.read, off, s.dlab, b⟩] }

/-- `log((W, off, D, byte))`. -/
def State.logWrite (s : State) (off : Offset) (b : Byte) : State :=
  { s with busLog := s.busLog ++ [⟨.write, off, s.dlab, b⟩] }

/-- A read at `off` that the environment answers (R33 (a)). -/
def State.readDrawn (s : State) (off : Offset) : State :=
  (s.afterDraws 1).logRead off (s.upcoming 0)

/-- A read at `off` that READBACK decides: the stored byte or a draw (D4). -/
def State.readBack (s : State) (off : Offset) (stored : Byte) : State :=
  match s.params.readback with
  | .draw => s.readDrawn off
  | .stored => s.logRead off stored

/-! ### Registers -/

/-- `x[TXLOG] <- x[TXLOG] ++ [data]` (R121). -/
def State.transmit (s : State) (d : Byte) : State := { s with txLog := s.txLog ++ [d] }

/-- `x[DLL] <- data` (R123). -/
def State.setDll (s : State) (d : Byte) : State := { s with dll := d }

/-- `x[IER] <- data` (R125). -/
def State.setIer (s : State) (d : Byte) : State := { s with ier := d }

/-- `x[DLM] <- data` (R127). -/
def State.setDlm (s : State) (d : Byte) : State := { s with dlm := d }

/-- `x[FCR] <- data` (R129). -/
def State.setFcr (s : State) (d : Byte) : State := { s with fcr := d }

/-- `x[LCR] <- data` (R131). -/
def State.setLcr (s : State) (d : Byte) : State := { s with lcr := d }

/-! ### The device window (R62) -/

/-- DEVBASE: the base at which a device decodes, if any (R62). -/
def State.window (s : State) : Option Port :=
  match s.params.devBase with
  | .atPort => s.home
  | .fixed b => some b
  | .absent => none

/-- The offset an address selects, none outside the window (R62, R140). The sum `DEVBASE + 7` is not
reduced modulo 2^16: with a fixed DEVBASE above 0xFFF8, which R6 admits and no rule bounds, only the
addresses from DEVBASE to 0xFFFF select offsets (DESIGN CHOICE, log entry 21). -/
def State.offsetOf (s : State) (addr : Nat) : Option Offset :=
  match s.window with
  | none => none
  | some w =>
    if w.toNat ≤ addr ∧ addr ≤ w.toNat + 7 then some (BitVec.ofNat 3 (addr - w.toNat)) else none

/-- Some address of `addr .. addr + extra` lies in the window; neither end is reduced modulo 2^16 (log
entries 16 and 21). -/
def State.touchesWindow (s : State) (addr extra : Nat) : Bool :=
  match s.window with
  | none => false
  | some w => decide (addr ≤ w.toNat + 7 ∧ w.toNat ≤ addr + extra)

/-- The no-device access (R141): a read is a draw, a write does nothing, nothing is logged. -/
def State.noDevice (s : State) (dir : Dir) : State :=
  match dir with
  | .read => { s.afterDraws 1 with readData := s.upcoming 0 }
  | .write => s

/-! ### Acceptance and end of a command (R156) -/

/-- `pc <- L`, with the record `b` otherwise as it is. -/
def State.goto (s : State) (b : Busy) (pc : Label) : State :=
  { s with seq := .busy { b with pc := pc } }

/-- `done(r)`: the sequencer is Idle and the result goes to the host (R8). -/
def State.done (s : State) (r : CmdResult) : State := { s with seq := .idle, result := r }

/-- The sequencer takes up a command at its first step (R156). The temporaries start at 0 and are
written before they are read (log entry 10). -/
def State.start (s : State) (cmd : Command) (pc : Label) : State :=
  { s with seq := .busy ⟨cmd, pc, 0#8, 0#8, 0⟩ }

/-- The gate every command but construct passes: it is accepted in Idle (R156), and only on a Port that
exists (R94, R221). It comes before the operands are looked at (log entry 17). -/
def State.onIdlePort (s : State) (k : Result) : Result :=
  match s.seq with
  | .busy _ => .refused .reentrant
  | .idle =>
    match s.base with
    | none => .refused .noPort
    | some _ => k

end Sys2Proof.Machine
end

