-- ==== Sys2Proof/Machine/BusReads.lean ====
section
/-! DEFINITION. The ten reads of `40_bus_access.md`: what the device does when a byte is read at one of
its offsets. Offsets 0 and 1 answer from the register that DLAB selects at the moment of the access
(R92): an access form issued at the other mode is the twin form at the same address (R120, R122,
R124, R126; log entry 11). -/

namespace Sys2Proof.Machine

/-- RBR_RD (R120). With DLAB = 1 the same address is DLL_RD. -/
def execRbrRd (s : State) : Result :=
  .next (if s.dlab then s.readBack offData s.dll else s.readDrawn offData)

/-- DLL_RD (R122). With DLAB = 0 the same address is RBR_RD. -/
def execDllRd (s : State) : Result :=
  .next (if s.dlab then s.readBack offData s.dll else s.readDrawn offData)

/-- IER_RD (R124). With DLAB = 1 the same address is DLM_RD. -/
def execIerRd (s : State) : Result :=
  .next (if s.dlab then s.readBack offInterrupt s.dlm else s.readBack offInterrupt s.ier)

/-- DLM_RD (R126). With DLAB = 0 the same address is IER_RD. -/
def execDlmRd (s : State) : Result :=
  .next (if s.dlab then s.readBack offInterrupt s.dlm else s.readBack offInterrupt s.ier)

/-- IIR_RD (R128): a draw, never `x[FCR]`. -/
def execIirRd (s : State) : Result := .next (s.readDrawn offIdentFifo)

/-- LCR_RD (R130): the one read whose value the stored state fixes. -/
def execLcrRd (s : State) : Result := .next (s.logRead offLineControl s.lcr)

/-- MCR_RD (R132). -/
def execMcrRd (s : State) : Result := .next (s.readDrawn offModemControl)

/-- LSR_RD (R134). -/
def execLsrRd (s : State) : Result := .next (s.readDrawn offLineStatus)

/-- MSR_RD (R136). -/
def execMsrRd (s : State) : Result := .next (s.readDrawn offModemStatus)

/-- SCR_RD (R138). -/
def execScrRd (s : State) : Result := .next (s.readDrawn offScratch)

end Sys2Proof.Machine
end

