-- ==== Sys2Proof/Machine/BusWrites.lean ====
section
/-! DEFINITION. The ten writes of `40_bus_access.md`. The log entry holds DLAB as it was when the access
arrived (R140). Offsets 0 and 1 store to the register that DLAB selects at the moment of the access
(R92): an access form issued at the other mode is the twin form at the same address (R121, R123,
R125, R127; log entry 11). -/

namespace Sys2Proof.Machine

/-- THR_WR (R121). With DLAB = 1 the same address is DLL_WR and the byte is not transmitted. -/
def execThrWr (d : Byte) (s : State) : Result :=
  .next (if s.dlab then (s.logWrite offData d).setDll d else (s.logWrite offData d).transmit d)

/-- DLL_WR (R123). With DLAB = 0 the same address is THR_WR. -/
def execDllWr (d : Byte) (s : State) : Result :=
  .next (if s.dlab then (s.logWrite offData d).setDll d else (s.logWrite offData d).transmit d)

/-- IER_WR (R125). With DLAB = 1 the same address is DLM_WR and `x[IER]` is not written. -/
def execIerWr (d : Byte) (s : State) : Result :=
  .next (if s.dlab then (s.logWrite offInterrupt d).setDlm d else (s.logWrite offInterrupt d).setIer d)

/-- DLM_WR (R127). With DLAB = 0 the same address is IER_WR. -/
def execDlmWr (d : Byte) (s : State) : Result :=
  .next (if s.dlab then (s.logWrite offInterrupt d).setDlm d else (s.logWrite offInterrupt d).setIer d)

/-- FCR_WR (R129). -/
def execFcrWr (d : Byte) (s : State) : Result := .next ((s.logWrite offIdentFifo d).setFcr d)

/-- LCR_WR (R131): all eight bits; the new DLAB governs the next access. -/
def execLcrWr (d : Byte) (s : State) : Result := .next ((s.logWrite offLineControl d).setLcr d)

/-- MCR_WR (R133): logged, no stored state changes. -/
def execMcrWr (d : Byte) (s : State) : Result := .next (s.logWrite offModemControl d)

/-- LSR_WR (R135, reserved): logged, no stored state changes (D6; the strict model's refusal is not
taken, log entry 18). -/
def execLsrWr (d : Byte) (s : State) : Result := .next (s.logWrite offLineStatus d)

/-- MSR_WR (R137, reserved): as LSR_WR. -/
def execMsrWr (d : Byte) (s : State) : Result := .next (s.logWrite offModemStatus d)

/-- SCR_WR (R139): logged, no stored state changes. -/
def execScrWr (d : Byte) (s : State) : Result := .next (s.logWrite offScratch d)

end Sys2Proof.Machine
end

