-- ==== Sys2Proof/Machine/Configuration.lean ====
section
/-! DEFINITION. The six configuration commands (`41_configuration.md`). The meaning of a command is its
acceptance (R156): the sequencer becomes Busy at the command's first step and every later micro-step
is a step of its own (Sequencer; log entry 14). construct performs no access and ends at once. -/

namespace Sys2Proof.Machine

/-- construct (R150). A construct that is not the first leaves the device where it stands (R74, log
entry 7). -/
def execConstruct (b : Port) (s : State) : Result :=
  match s.seq with
  | .busy _ => .refused .reentrant
  | .idle =>
    if baseInRange b then .next ({ s with base := some b, home := s.home.or (some b) }.done (.port b))
    else .refused .baseOutOfRange

/-- initialize (R151): steps M1, S1 to S5, L1, F1. -/
def execInitialize (s : State) : Result := s.onIdlePort (.next (s.start .initializePort .M1))

/-- set_fifo_options (R152): step F1. -/
def execSetFifoOptions (options : Byte) (s : State) : Result :=
  s.onIdlePort (.next (s.start (.setFifoOptions options) .F1))

/-- set_interrupt_mask (R153): step M1. -/
def execSetInterruptMask (mask : Byte) (s : State) : Result :=
  s.onIdlePort (.next (s.start (.setInterruptMask mask) .M1))

/-- set_divisor_speed (R154): a code that is not listed is refused, then steps S1 to S5. -/
def execSetDivisorSpeed (code : Divisor) (s : State) : Result :=
  s.onIdlePort
    (if divisorListed code then .next (s.start (.setDivisorSpeed code) .S1)
     else .refused .notEnumerated)

/-- set_line_options (R155): a parity code that is not listed is refused, then step L1. -/
def execSetLineOptions (dataBits : Byte) (stopBits : Bool) (parity : Byte) (s : State) : Result :=
  s.onIdlePort
    (if parityListed parity then .next (s.start (.setLineOptions dataBits stopBits parity) .L1)
     else .refused .notEnumerated)

end Sys2Proof.Machine
end

