-- ==== Sys2Proof/Machine/StatusTransmit.lean ====
section
/-! DEFINITION. The status and transmit commands (`42_status_and_transmit.md`): acceptance, as in
Configuration; the micro-steps are the sequencer's. -/

namespace Sys2Proof.Machine

/-- packet_received (R170): step P1. -/
def execPacketReceived (s : State) : Result := s.onIdlePort (.next (s.start .packetReceived .P1))

/-- transmit_empty (R171): step T1. -/
def execTransmitEmpty (s : State) : Result := s.onIdlePort (.next (s.start .transmitEmpty .T1))

/-- write_char (R172): steps W1, W2. -/
def execWriteChar (c : CharCode) (s : State) : Result := s.onIdlePort (.next (s.start (.writeChar c) .W1))

/-- write_str (R173): `i <- 0`, then X0, W1, W2. -/
def execWriteStr (cs : List CharCode) (s : State) : Result := s.onIdlePort (.next (s.start (.writeStr cs) .X0))

end Sys2Proof.Machine
end

