-- ==== Sys2Proof/Machine/Dispatch.lean ====
section
/-! DEFINITION. One arm per constructor of Instr. -/

namespace Sys2Proof.Machine

def exec (i : Instr) (s : State) : Host.Outcome State Fault Refusal :=
  match i with
  | .rbrRd => Sys2Proof.Machine.execRbrRd s
  | .thrWr data => Sys2Proof.Machine.execThrWr data s
  | .dllRd => Sys2Proof.Machine.execDllRd s
  | .dllWr data => Sys2Proof.Machine.execDllWr data s
  | .ierRd => Sys2Proof.Machine.execIerRd s
  | .ierWr data => Sys2Proof.Machine.execIerWr data s
  | .dlmRd => Sys2Proof.Machine.execDlmRd s
  | .dlmWr data => Sys2Proof.Machine.execDlmWr data s
  | .iirRd => Sys2Proof.Machine.execIirRd s
  | .fcrWr data => Sys2Proof.Machine.execFcrWr data s
  | .lcrRd => Sys2Proof.Machine.execLcrRd s
  | .lcrWr data => Sys2Proof.Machine.execLcrWr data s
  | .mcrRd => Sys2Proof.Machine.execMcrRd s
  | .mcrWr data => Sys2Proof.Machine.execMcrWr data s
  | .lsrRd => Sys2Proof.Machine.execLsrRd s
  | .lsrWr data => Sys2Proof.Machine.execLsrWr data s
  | .msrRd => Sys2Proof.Machine.execMsrRd s
  | .msrWr data => Sys2Proof.Machine.execMsrWr data s
  | .scrRd => Sys2Proof.Machine.execScrRd s
  | .scrWr data => Sys2Proof.Machine.execScrWr data s
  | .construct baseAddress => Sys2Proof.Machine.execConstruct baseAddress s
  | .initializePort => Sys2Proof.Machine.execInitialize s
  | .setFifoOptions options => Sys2Proof.Machine.execSetFifoOptions options s
  | .setInterruptMask mask => Sys2Proof.Machine.execSetInterruptMask mask s
  | .setDivisorSpeed code => Sys2Proof.Machine.execSetDivisorSpeed code s
  | .setLineOptions dataBits stopBits parity => Sys2Proof.Machine.execSetLineOptions dataBits stopBits parity s
  | .packetReceived => Sys2Proof.Machine.execPacketReceived s
  | .transmitEmpty => Sys2Proof.Machine.execTransmitEmpty s
  | .writeChar c => Sys2Proof.Machine.execWriteChar c s
  | .writeStr chars => Sys2Proof.Machine.execWriteStr chars s

end Sys2Proof.Machine
end

