-- ==== Sys2Proof/Machine/Sequencer.lean ====
section
/-! DEFINITION. The access procedure (`40_bus_access.md` R140) and the sequencer's micro-steps
(`41_configuration.md`, `42_status_and_transmit.md`): one definition per step label of R22, each with
at most one bus access. initialize and write_str run the steps of the commands they expand to (R100,
R174 (d)). -/

namespace Sys2Proof.Machine

/-- `access(dir, addr, data)` (R140): the window test, the selector with DLAB as it is now, and the one
rule whose row matches. The byte of a read is `readData` of the next state. -/
def access (dir : Dir) (addr : Nat) (data : Byte) (s : State) : Result :=
  match s.offsetOf addr with
  | none => .next (s.noDevice dir)
  | some off => exec (decodeSel (selector dir off s.dlab) data) s

/-- The access of a micro-step at offset `k` of the Port (R61, R95), after which the step goes on with
`f`. -/
def portAccess (dir : Dir) (k : Offset) (data : Byte) (s : State) (f : State → Result) : Result :=
  match s.base with
  | none => .fault .strayStep
  | some b => Result.andThen (access dir (portAddr b k) data s) f

/-- End of a part of initialize, or of the same command issued on its own: initialize goes on at `pc`,
the command is done (R100). -/
def endPart (b : Busy) (pc : Label) (s : State) : Result :=
  match b.cmd with
  | .initializePort => .next (s.goto b pc)
  | _ => .next (s.done .nothing)

/-- M1 (R153): write the mask at offset 1. -/
def stepM1 (b : Busy) (s : State) : Result :=
  match b.cmd with
  | .initializePort => portAccess .write offInterrupt initMask s (endPart b .S1)
  | .setInterruptMask mask => portAccess .write offInterrupt mask s (endPart b .S1)
  | _ => .fault .strayStep

/-- The divisor that steps S1 to S5 set, none for a command without them. -/
def Command.divisor? : Command → Option Divisor
  | .initializePort => some initDivisor
  | .setDivisorSpeed code => some code
  | _ => none

/-- S1 (R154): `v <- MemRead(base + 3, 1)`. -/
def stepS1 (b : Busy) (s : State) : Result :=
  match b.cmd.divisor? with
  | none => .fault .strayStep
  | some _ => portAccess .read offLineControl 0#8 s fun t => .next (t.goto { b with v := t.readData } .S2)

/-- S2 (R154): write `v | 0x80` at offset 3. -/
def stepS2 (b : Busy) (s : State) : Result :=
  match b.cmd.divisor? with
  | none => .fault .strayStep
  | some _ => portAccess .write offLineControl (latchOpen b.v) s fun t => .next (t.goto b .S3)

/-- S3 (R154): write the divisor low byte at offset 0. -/
def stepS3 (b : Busy) (s : State) : Result :=
  match b.cmd.divisor? with
  | none => .fault .strayStep
  | some d => portAccess .write offData (divisorLow d) s fun t => .next (t.goto b .S4)

/-- S4 (R154): write the divisor high byte at offset 1. -/
def stepS4 (b : Busy) (s : State) : Result :=
  match b.cmd.divisor? with
  | none => .fault .strayStep
  | some d => portAccess .write offInterrupt (divisorHigh d) s fun t => .next (t.goto b .S5)

/-- S5 (R154): write `v & 0x7F` at offset 3. -/
def stepS5 (b : Busy) (s : State) : Result :=
  match b.cmd.divisor? with
  | none => .fault .strayStep
  | some _ => portAccess .write offLineControl (latchClose b.v) s (endPart b .L1)

/-- L1 (R155): write the line byte at offset 3. -/
def stepL1 (b : Busy) (s : State) : Result :=
  match b.cmd with
  | .initializePort => portAccess .write offLineControl initLine s (endPart b .F1)
  | .setLineOptions dataBits stopBits parity =>
    portAccess .write offLineControl (lineByte dataBits stopBits parity) s (endPart b .F1)
  | _ => .fault .strayStep

/-- F1 (R152): write the options at offset 2. It is the last step of initialize, which sets INIT (R35,
R151). -/
def stepF1 (b : Busy) (s : State) : Result :=
  match b.cmd with
  | .initializePort =>
    portAccess .write offIdentFifo fifoInit s fun t => .next ({ t with init := true }.done .nothing)
  | .setFifoOptions options => portAccess .write offIdentFifo options s fun t => .next (t.done .nothing)
  | _ => .fault .strayStep

/-- P1 (R170): `s <- MemRead(base + 5, 1); done(s & 0x01 != 0)`. -/
def stepP1 (b : Busy) (s : State) : Result :=
  match b.cmd with
  | .packetReceived =>
    portAccess .read offLineStatus 0#8 s fun t => .next (t.done (.flag (isDataReady t.readData)))
  | _ => .fault .strayStep

/-- T1 (R171): `s <- MemRead(base + 5, 1); done(s & 0x20 != 0)`. -/
def stepT1 (b : Busy) (s : State) : Result :=
  match b.cmd with
  | .transmitEmpty =>
    portAccess .read offLineStatus 0#8 s fun t => .next (t.done (.flag (isTransmitEmpty t.readData)))
  | _ => .fault .strayStep

/-- The character that W1 and W2 send, none for a command without them or past the last one. -/
def Busy.char? (b : Busy) : Option CharCode :=
  match b.cmd with
  | .writeChar c => some c
  | .writeStr cs => cs[b.i]?
  | _ => none

/-- W1 (R172): sample line status; to W2 if transmit-empty is set, else W1 again. -/
def stepW1 (b : Busy) (s : State) : Result :=
  match b.char? with
  | none => .fault .strayStep
  | some _ =>
    portAccess .read offLineStatus 0#8 s fun t =>
      .next (t.goto { b with s := t.readData } (if isTransmitEmpty t.readData then .W2 else .W1))

/-- W2 (R172): write the character's low byte at offset 0. write_char is done; write_str goes on with
`i <- i + 1; pc <- X0` (R173). -/
def stepW2 (b : Busy) (s : State) : Result :=
  match b.cmd with
  | .writeChar c => portAccess .write offData (charByte c) s fun t => .next (t.done .nothing)
  | .writeStr cs =>
    match cs[b.i]? with
    | none => .fault .strayStep
    | some c =>
      portAccess .write offData (charByte c) s fun t => .next (t.goto { b with i := b.i + 1 } .X0)
  | _ => .fault .strayStep

/-- X0 (R173): done when all characters are written, else to W1; no bus access. -/
def stepX0 (b : Busy) (s : State) : Result :=
  match b.cmd with
  | .writeStr cs => if b.i = cs.length then .next (s.done .nothing) else .next (s.goto b .W1)
  | _ => .fault .strayStep

/-- One micro-step of a Busy sequencer (R156). -/
def microStep (b : Busy) (s : State) : Result :=
  match b.pc with
  | .M1 => stepM1 b s
  | .S1 => stepS1 b s
  | .S2 => stepS2 b s
  | .S3 => stepS3 b s
  | .S4 => stepS4 b s
  | .S5 => stepS5 b s
  | .L1 => stepL1 b s
  | .F1 => stepF1 b s
  | .P1 => stepP1 b s
  | .T1 => stepT1 b s
  | .W1 => stepW1 b s
  | .W2 => stepW2 b s
  | .X0 => stepX0 b s

/-- The sequencer's turn: a micro-step when Busy, nothing when Idle. -/
def seqMove (s : State) : Result :=
  match s.seq with
  | .idle => .next s
  | .busy b => microStep b s

/-- `n` turns of the sequencer with nothing in between (the exclusion contract, R199 (a)). -/
def seqRun : Nat → State → Result
  | 0, s => .next s
  | n + 1, s => Result.andThen (seqMove s) (seqRun n)

/-- A command issued and `n` turns of the sequencer with nothing in between. -/
def runCommand (i : Instr) (n : Nat) (s : State) : Result := Result.andThen (exec i s) (seqRun n)

end Sys2Proof.Machine
end

