-- ==== Sys2Proof/Machine/Events.lean ====
section
/-! DEFINITION. What a step takes up next: what an agent issues, or the sequencer's turn (`00_scope.md`
R11, `20_memory.md` R69). The block fetches no instructions (`10_state.md` R22); the queue of events
stands where another machine has its program. -/

namespace Sys2Proof.Machine

/-- A bus access of any agent. One wider than a byte that touches the window is refused (R65); outside
the window it reaches no device (R62; log entry 16). -/
def performAccess (a : BusAccess) (s : State) : Result :=
  if a.extra = 0 then access a.dir a.addr.toNat a.data s
  else if s.touchesWindow a.addr.toNat a.extra then .refused .wideAccess
  else .next (s.noDevice a.dir)

/-- A command, given as an image. -/
def performCommand (image : List Byte) (s : State) : Result :=
  match decode image with
  | .error why => .refused (.undecodable why)
  | .ok i => if i.isCommand then exec i s else .refused (.undecodable .notACommand)

/-- What an agent issued. -/
def perform (what : Issue) (s : State) : Result :=
  match what with
  | .command image => performCommand image s
  | .access a => performAccess a s

/-- The host waits while the sequencer is Busy (R11 (1)); another agent does not. -/
def Agent.waits : Agent → State → Bool
  | .host, s => s.isBusy
  | .other, _ => false

/-- The next thing that happens: the event at the head of the queue; the sequencer's turn where the
queue is empty or the host waits. -/
def moveNext (s : State) : Result :=
  match s.events with
  | [] => seqMove s
  | .turn :: rest => seqMove { s with events := rest }
  | .issue who what :: rest =>
    if who.waits s then seqMove s else perform what { s with events := rest }

/-- Time passes for the line side (R33 (c), R194). -/
def State.tick (s : State) : State := { s with env := { s.env with moment := s.env.moment + 1 } }

/-- Another agent issues `what` before everything queued. -/
def State.issueFirst (s : State) (what : Issue) : State :=
  { s with events := .issue .other what :: s.events }

/-- Eight port addresses lead to the device: where it stands already if they all exist, else at COM1. -/
def State.withDevice (s : State) : State :=
  if s.window.any baseInRange then s
  else { s with params := { s.params with devBase := .fixed com1 } }

/-- DLAB has the value a row fixes. -/
def State.withLatch (s : State) (latch : Option Bool) : State :=
  match latch with
  | none => s
  | some true => { s with lcr := latchOpen s.lcr }
  | some false => { s with lcr := latchClose s.lcr }

/-- A Port exists: the one there is, else one at COM1. -/
def State.withPort (s : State) : State :=
  match s.base with
  | some _ => s
  | none => { s with base := some com1, home := s.home.or (some com1) }

/-- `s` with the instruction `i` as the very next thing issued (log entry 12). -/
def State.placeInstr (s : State) (i : Instr) : State :=
  match i.busForm with
  | some f =>
    let t := s.withDevice.withLatch f.latch
    let addr := BitVec.ofNat 16 (portAddr (t.window.getD com1) f.off)
    t.issueFirst (.access ⟨f.dir, addr, f.data, 0⟩)
  | none =>
    match i with
    | .construct _ => s.issueFirst (.command (encode i))
    | _ => s.withPort.issueFirst (.command (encode i))

/-- `s` with a table word as the very next thing issued: its instruction, or its image where it spells
none, which the step refuses. -/
def State.placeWord (s : State) (nbits w : Nat) : State :=
  match decodeTableWord nbits w with
  | some i => s.placeInstr i
  | none => s.issueFirst (.command (tableImage nbits w))

end Sys2Proof.Machine
end

