-- ==== Sys2Proof/Machine/Step.lean ====
section
/-! DEFINITION. One step: the next thing that happens, and a moment passes. -/

namespace Sys2Proof.Machine

/-- One step of the machine. A refusal or a fault leaves no next state (R192). -/
def step (s : State) : Host.Outcome State Fault Refusal :=
  Result.andThen (moveNext s) fun t => .next t.tick

/-- `s` with a word of the opcode table as the next instruction (log entry 12). -/
def State.withFetchWord (s : State) (nbits w : Nat) : State := s.placeWord nbits w

end Sys2Proof.Machine
end

