-- ==== Sys2Proof/Safety.lean ====
section
/-! DEFINITION. The terms that claims about the block use (`00_scope.md` R12): the invariant of its
states, the exclusion contract, the register state as a function of the bus log. -/

namespace Sys2Proof.Machine

/-! ### The device at the Port -/

/-- The Port has this base and the device stands there: `DEVBASE = base` (R62). -/
def State.DeviceAtPort (s : State) (b : Port) : Prop := s.base = some b ∧ s.window = some b

/-- The Port has this base and none of its eight addresses reaches a device: no UART is present there, or
one stands elsewhere (R62, R141). -/
def State.NoDeviceAtPort (s : State) (b : Port) : Prop :=
  s.base = some b ∧ ∀ k : Offset, s.offsetOf (portAddr b k) = none

/-- The exclusion contract (R199 (a)): no agent but the host issues anything. -/
def State.Exclusive (s : State) : Prop := ∀ what, Event.issue .other what ∉ s.events

/-! ### Register state and bus log (R32, R69 (d)) -/

/-- The five stored registers. -/
structure Regs where
  lcr : Byte
  dll : Byte
  dlm : Byte
  ier : Byte
  fcr : Byte
  deriving DecidableEq, Repr

/-- The stored registers of a state. -/
def State.regs (s : State) : Regs := ⟨s.lcr, s.dll, s.dlm, s.ier, s.fcr⟩

/-- What one logged access does to the stored registers (R20's table, "on write"). -/
def Regs.after (r : Regs) (e : BusEntry) : Regs :=
  match e.dir with
  | .read => r
  | .write =>
    if e.off = 0#3 then (if r.lcr[7] then { r with dll := e.data } else r)
    else if e.off = 1#3 then
      (if r.lcr[7] then { r with dlm := e.data } else { r with ier := e.data })
    else if e.off = 2#3 then { r with fcr := e.data }
    else if e.off = 3#3 then { r with lcr := e.data }
    else r

/-- The byte a logged access sends: written at offset 0 while DLAB = 0 (R32 TXLOG). -/
def BusEntry.sent (e : BusEntry) : Option Byte :=
  if e.dir = .write ∧ e.off = 0#3 ∧ e.dlab = false then some e.data else none

/-! ### The invariant -/

/-- The step labels of a command (R151 to R155, R170 to R173). -/
def Command.labels : Command → List Label
  | .initializePort => [.M1, .S1, .S2, .S3, .S4, .S5, .L1, .F1]
  | .setFifoOptions _ => [.F1]
  | .setInterruptMask _ => [.M1]
  | .setDivisorSpeed _ => [.S1, .S2, .S3, .S4, .S5]
  | .setLineOptions _ _ _ => [.L1]
  | .packetReceived => [.P1]
  | .transmitEmpty => [.T1]
  | .writeChar _ => [.W1, .W2]
  | .writeStr _ => [.X0, .W1, .W2]

/-- The index `i` of write_str counts characters written: at most all of them, fewer while one is being
sent (R173, R174 (c)). -/
def Busy.indexOk (b : Busy) : Bool :=
  match b.cmd with
  | .writeStr cs => if b.pc = .X0 then decide (b.i ≤ cs.length) else decide (b.i < cs.length)
  | _ => true

/-- A Busy sequencer works for a Port that exists, at a label of its command (R22). -/
def State.seqOk (s : State) : Bool :=
  match s.seq with
  | .idle => true
  | .busy b => s.base.isSome && b.cmd.labels.contains b.pc && b.indexOk

/-- The invariant: every base is at most 0xFFF8, so that no register address passes 0xFFFF (R61); a Port
exists exactly when the first construct has been made; the sequencer is at a label of its command; TXLOG
is the sub-list of BUSLOG that R32 says. -/
structure State.Inv (s : State) : Prop where
  base_legal : s.base.all baseInRange = true
  home_legal : s.home.all baseInRange = true
  home_iff   : s.home.isSome = s.base.isSome
  seq_legal  : s.seqOk = true
  tx_sublog  : s.txLog = s.busLog.filterMap BusEntry.sent

/-- One moment later, where there is a next state (R194). -/
def Result.laterOne (o : Result) : Result :=
  match o with
  | .next t => .next { t with env := { t.env with moment := t.env.moment + 1 } }
  | .fault e => .fault e
  | .refused e => .refused e

/-! ### Names for log entries in claims -/

/-- `R off -> b`, with DLAB as given. -/
abbrev logR (off : Offset) (dlab : Bool) (b : Byte) : BusEntry := ⟨.read, off, dlab, b⟩

/-- `W off <- b`, with DLAB as given. -/
abbrev logW (off : Offset) (dlab : Bool) (b : Byte) : BusEntry := ⟨.write, off, dlab, b⟩

end Sys2Proof.Machine
end

