-- ==== Sys2Proof/WellFormed.lean ====
section
/-! DEFINITION. The operands the spec gives a command a meaning for (`30_encoding.md` R98): a base of
at most 0xFFF8, a listed divisor code, a listed parity code. Every other operand is accepted as it is
("no validation"). An ill-formed command is still an instruction: exec refuses it by the spec's own
name (`60_exceptions.md` R192). -/

namespace Sys2Proof

/-- The operands are among those the spec gives a meaning to (R98). -/
def Instr.wellFormed : Instr → Bool
  | .construct b => Machine.baseInRange b
  | .setDivisorSpeed code => Machine.divisorListed code
  | .setLineOptions _ _ parity => Machine.parityListed parity
  | .rbrRd => true
  | .thrWr _ => true
  | .dllRd => true
  | .dllWr _ => true
  | .ierRd => true
  | .ierWr _ => true
  | .dlmRd => true
  | .dlmWr _ => true
  | .iirRd => true
  | .fcrWr _ => true
  | .lcrRd => true
  | .lcrWr _ => true
  | .mcrRd => true
  | .mcrWr _ => true
  | .lsrRd => true
  | .lsrWr _ => true
  | .msrRd => true
  | .msrWr _ => true
  | .scrRd => true
  | .scrWr _ => true
  | .initializePort => true
  | .setFifoOptions _ => true
  | .setInterruptMask _ => true
  | .packetReceived => true
  | .transmitEmpty => true
  | .writeChar _ => true
  | .writeStr _ => true

end Sys2Proof
end

