-- ==== Sys2Proof/Certificates/Slice0/Obligations.lean ====
section
/-! DEFINITION. The statements for the provers. Bytes that appear in them are the spec's literals; draws
are written as `s.upcoming k`, the k-th draw from now on, whatever it is. A command's statement issues
it and gives the sequencer its turns with nothing in between (`runCommand`), which is the exclusion
contract of R199 (a); the statements about `step` say how a run is made of such moves. -/

open Sys2Proof Sys2Proof.Machine

/-! ### Encoding -/

/-- Decoding an encoded instruction gives it back, for every operand (R92, R94). The byte image is the
model's own (DESIGN CHOICE, log entry 3). -/
def Obligations.DecodeOfEncodeIsTheInstruction : Prop :=
  ∀ i : Instr, decode (encode i) = .ok i

/-- R92, R101: the twenty rows cover all 32 selector values exactly once, and the one row that accepts a
selector is the row of the form that the decoder reads from it, with the byte of a write. -/
def Obligations.EverySelectorMatchesOneRow : Prop :=
  busTable.length = 20 ∧
  ∀ (sel : Selector) (d : Byte), ∃ f : BusForm, (decodeSel sel d).busForm = some f ∧
    busTable.filter (·.accepts sel) = [f.row] ∧
    f.dir = (if sel.getLsbD 4 then .write else .read) ∧ f.off = sel.extractLsb' 1 3 ∧
    (∀ dlab, f.latch = some dlab → dlab = sel.getLsbD 0) ∧ (f.dir = .write → f.data = d)

/-- R92: the register an access selects, for each direction, offset and DLAB. -/
def Obligations.AccessSelectsTheTabulatedRow : Prop :=
  ∀ (d : Byte) (D : Bool),
    decodeSel (selector .read 0 false) d = .rbrRd ∧
    decodeSel (selector .write 0 false) d = .thrWr d ∧
    decodeSel (selector .read 0 true) d = .dllRd ∧
    decodeSel (selector .write 0 true) d = .dllWr d ∧
    decodeSel (selector .read 1 false) d = .ierRd ∧
    decodeSel (selector .write 1 false) d = .ierWr d ∧
    decodeSel (selector .read 1 true) d = .dlmRd ∧
    decodeSel (selector .write 1 true) d = .dlmWr d ∧
    decodeSel (selector .read 2 D) d = .iirRd ∧
    decodeSel (selector .write 2 D) d = .fcrWr d ∧
    decodeSel (selector .read 3 D) d = .lcrRd ∧
    decodeSel (selector .write 3 D) d = .lcrWr d ∧
    decodeSel (selector .read 4 D) d = .mcrRd ∧
    decodeSel (selector .write 4 D) d = .mcrWr d ∧
    decodeSel (selector .read 5 D) d = .lsrRd ∧
    decodeSel (selector .write 5 D) d = .lsrWr d ∧
    decodeSel (selector .read 6 D) d = .msrRd ∧
    decodeSel (selector .write 6 D) d = .msrWr d ∧
    decodeSel (selector .read 7 D) d = .scrRd ∧
    decodeSel (selector .write 7 D) d = .scrWr d

/-- R94: codes 10 to 15 spell no command, whatever follows. -/
def Obligations.CodesTenToFifteenSpellNoCommand : Prop :=
  ∀ (op : BitVec 4) (operands : List Byte), 10 ≤ op.toNat →
    decodeCommand op operands = .error .noCommand

/-- Words written out from the patterns of R92 and R94, the operand bytes as log entry 3 lays them out. -/
def Obligations.SpecPatternsDecode : Prop :=
  decodeSel 0b00000#5 0x41#8 = .rbrRd ∧
  decodeSel 0b10001#5 0x03#8 = .dllWr 0x03#8 ∧
  decodeSel 0b10110#5 0x87#8 = .lcrWr 0x87#8 ∧
  decodeSel 0b10111#5 0x87#8 = .lcrWr 0x87#8 ∧
  decodeSel 0b01011#5 0x00#8 = .lsrRd ∧
  decodeCommand 0b0000#4 [0xF8#8, 0x03#8] = .ok (.construct 0x3F8#16) ∧
  decodeCommand 0b0001#4 [] = .ok .initializePort ∧
  decodeCommand 0b0101#4 [0x03#8, 0x01#8, 0x1C#8] = .ok (.setLineOptions 3#8 true 0x1C#8) ∧
  decodeCommand 0b1000#4 [0xAC#8, 0x20#8, 0x00#8, 0x00#8] = .ok (.writeChar 0x20AC#32)

/-! ### Bus accesses: the result of each form -/

/-- R120, R128, R132, R134, R136, R138: a read that the line side answers returns a draw and changes
nothing but the log; at offset 0 with DLAB = 1 the same address is DLL_RD. -/
def Obligations.LineSideReadsReturnADraw : Prop :=
  ∀ s : State,
    let drawn (off : Offset) : State :=
      { s with readData := s.upcoming 0
               env := { s.env with answers := s.env.answers.drop 1, drawn := s.env.drawn + 1 }
               busLog := s.busLog ++ [logR off s.dlab (s.upcoming 0)] }
    (s.dlab = false → exec .rbrRd s = .next (drawn 0)) ∧
    (s.dlab = true → exec .rbrRd s = exec .dllRd s) ∧
    exec .iirRd s = .next (drawn 2) ∧
    exec .mcrRd s = .next (drawn 4) ∧
    exec .lsrRd s = .next (drawn 5) ∧
    exec .msrRd s = .next (drawn 6) ∧
    exec .scrRd s = .next (drawn 7)

/-- R122, R124, R126: DLL_RD, IER_RD and DLM_RD return a draw under READBACK = draw and the stored byte
under READBACK = stored, and change nothing but the log. With DLAB = 1 the address of IER_RD is that of
DLM_RD (R92); the model runs IER_RD so (log entry 11). -/
def Obligations.ReadBackFollowsTheParameter : Prop :=
  ∀ s : State,
    let drawn (off : Offset) : State :=
      { s with readData := s.upcoming 0
               env := { s.env with answers := s.env.answers.drop 1, drawn := s.env.drawn + 1 }
               busLog := s.busLog ++ [logR off s.dlab (s.upcoming 0)] }
    let kept (off : Offset) (b : Byte) : State :=
      { s with readData := b, busLog := s.busLog ++ [logR off s.dlab b] }
    (s.params.readback = .draw →
      (s.dlab = true → exec .dllRd s = .next (drawn 0) ∧ exec .dlmRd s = .next (drawn 1)) ∧
      (s.dlab = false → exec .ierRd s = .next (drawn 1))) ∧
    (s.params.readback = .stored →
      (s.dlab = true → exec .dllRd s = .next (kept 0 s.dll) ∧ exec .dlmRd s = .next (kept 1 s.dlm)) ∧
      (s.dlab = false → exec .ierRd s = .next (kept 1 s.ier))) ∧
    (s.dlab = true → exec .ierRd s = exec .dlmRd s)

/-- R130: an LCR read returns the stored byte and changes nothing but the log, in either mode. -/
def Obligations.LcrReadReturnsTheStoredByte : Prop :=
  ∀ (s : State) (d : Byte),
    decodeSel 0x06#5 d = .lcrRd ∧ decodeSel 0x07#5 d = .lcrRd ∧
    exec .lcrRd s =
      .next { s with readData := s.lcr, busLog := s.busLog ++ [logR 3 s.dlab s.lcr] }

/-- R121: with DLAB = 0 the byte is appended to TXLOG; with DLAB = 1 the same address is DLL_WR. -/
def Obligations.ThrWriteAppendsToTxLog : Prop :=
  ∀ (s : State) (d : Byte), decodeSel 0x10#5 d = .thrWr d ∧
    (s.dlab = false →
      exec (.thrWr d) s =
        .next { s with txLog := s.txLog ++ [d], busLog := s.busLog ++ [logW 0 false d] }) ∧
    (s.dlab = true →
      exec (.thrWr d) s = .next { s with dll := d, busLog := s.busLog ++ [logW 0 true d] })

/-- R123, R127: with DLAB = 1 the byte goes to the addressed half of the divisor latch and to nothing
else. -/
def Obligations.DivisorLatchWritesStoreOneHalf : Prop :=
  ∀ (s : State) (d : Byte), s.dlab = true →
    decodeSel 0x11#5 d = .dllWr d ∧ decodeSel 0x13#5 d = .dlmWr d ∧
    exec (.dllWr d) s = .next { s with dll := d, busLog := s.busLog ++ [logW 0 true d] } ∧
    exec (.dlmWr d) s = .next { s with dlm := d, busLog := s.busLog ++ [logW 1 true d] }

/-- R125: with DLAB = 0 all eight bits of the mask are stored; with DLAB = 1 the same address is DLM_WR
and IER is not written. -/
def Obligations.IerWriteStoresTheMask : Prop :=
  ∀ (s : State) (d : Byte), decodeSel 0x12#5 d = .ierWr d ∧
    (s.dlab = false →
      exec (.ierWr d) s = .next { s with ier := d, busLog := s.busLog ++ [logW 1 false d] }) ∧
    (s.dlab = true →
      exec (.ierWr d) s = .next { s with dlm := d, busLog := s.busLog ++ [logW 1 true d] })

/-- The latch forms issued with DLAB = 0 are their twins at the same address (R92); the model runs them
so (log entry 11). -/
def Obligations.LatchFormsWithTheLatchClosedAreTheirTwins : Prop :=
  ∀ (s : State) (d : Byte), s.dlab = false →
    exec (.dllWr d) s =
      .next { s with txLog := s.txLog ++ [d], busLog := s.busLog ++ [logW 0 false d] } ∧
    exec (.dlmWr d) s = .next { s with ier := d, busLog := s.busLog ++ [logW 1 false d] } ∧
    exec .dllRd s = exec .rbrRd s ∧ exec .dlmRd s = exec .ierRd s

/-- R129: the FIFO-control byte goes to the shadow and nothing else changes, in either mode. -/
def Obligations.FcrWriteStoresTheShadow : Prop :=
  ∀ (s : State) (d : Byte), decodeSel 0x14#5 d = .fcrWr d ∧ decodeSel 0x15#5 d = .fcrWr d ∧
    exec (.fcrWr d) s = .next { s with fcr := d, busLog := s.busLog ++ [logW 2 s.dlab d] }

/-- R131: all eight bits of LCR are replaced, DLAB becomes bit 7 of the byte, and DLL, DLM and IER keep
their values; the log holds the DLAB before the write. -/
def Obligations.LcrWriteReplacesAllEightBits : Prop :=
  ∀ (s : State) (d : Byte), decodeSel 0x16#5 d = .lcrWr d ∧ decodeSel 0x17#5 d = .lcrWr d ∧
    ∃ t : State, exec (.lcrWr d) s = .next t ∧
    t = { s with lcr := d, busLog := s.busLog ++ [logW 3 s.dlab d] } ∧
    t.dlab = d[7]

/-- R133, R139: writes at offsets 4 and 7 change nothing but the log. R135, R137: so do the reserved
writes at offsets 5 and 6, in a model that does not take the strict refusal `ReservedWrite`, which is this
model's choice (log entry 18). -/
def Obligations.UnstoredWritesChangeOnlyTheLog : Prop :=
  ∀ (s : State) (d : Byte),
    decodeSel 0x18#5 d = .mcrWr d ∧ decodeSel 0x19#5 d = .mcrWr d ∧
    decodeSel 0x1A#5 d = .lsrWr d ∧ decodeSel 0x1B#5 d = .lsrWr d ∧
    decodeSel 0x1C#5 d = .msrWr d ∧ decodeSel 0x1D#5 d = .msrWr d ∧
    decodeSel 0x1E#5 d = .scrWr d ∧ decodeSel 0x1F#5 d = .scrWr d ∧
    exec (.mcrWr d) s = .next { s with busLog := s.busLog ++ [logW 4 s.dlab d] } ∧
    exec (.lsrWr d) s = .next { s with busLog := s.busLog ++ [logW 5 s.dlab d] } ∧
    exec (.msrWr d) s = .next { s with busLog := s.busLog ++ [logW 6 s.dlab d] } ∧
    exec (.scrWr d) s = .next { s with busLog := s.busLog ++ [logW 7 s.dlab d] }

/-- R134, R33: every byte is a possible answer at every draw: whatever the state, some environment gives
that byte next, and the two states differ in the environment alone. -/
def Obligations.EveryByteIsAPossibleDraw : Prop :=
  ∀ (s : State) (x : Byte), ∃ e : Env,
    ({ s with env := e }).upcoming 0 = x ∧
    ∃ t : State, exec .lsrRd { s with env := e } = .next t ∧ t.readData = x

/-! ### Bus accesses: frames -/

/-- R67: a read changes nothing of the stored state except the logs; what else may change is the byte
handed to the agent and the environment's draw. All ten reads, in either mode; a form at offset 0 or 1
executed at the other value of DLAB is its twin (log entry 11). -/
def Obligations.ReadsChangeNoStoredState : Prop :=
  ∀ (i : Instr) (f : BusForm) (s t : State), i.busForm = some f → f.dir = .read →
    exec i s = .next t →
    t.regs = s.regs ∧ t.txLog = s.txLog ∧ t.base = s.base ∧ t.home = s.home ∧ t.init = s.init ∧
    t.seq = s.seq ∧ t.result = s.result ∧ t.events = s.events ∧ t.params = s.params ∧
    t.env.moment = s.env.moment ∧
    ∃ b : Byte, t.readData = b ∧ t.busLog = s.busLog ++ [logR f.off s.dlab b]

/-- A write changes only the register that its offset and DLAB select, the log and, at offset 0 with
DLAB = 0, TXLOG. All ten writes, in either mode; a form at offset 0 or 1 executed at the other value of
DLAB is its twin (log entry 11). -/
def Obligations.WritesChangeOnlyTheSelectedRegister : Prop :=
  ∀ (i : Instr) (f : BusForm) (s t : State), i.busForm = some f → f.dir = .write →
    exec i s = .next t →
    t.base = s.base ∧ t.home = s.home ∧ t.init = s.init ∧ t.seq = s.seq ∧ t.result = s.result ∧
    t.readData = s.readData ∧ t.env = s.env ∧ t.events = s.events ∧ t.params = s.params ∧
    t.busLog = s.busLog ++ [logW f.off s.dlab f.data] ∧
    (¬ (f.off = 3) → t.lcr = s.lcr) ∧
    (¬ (f.off = 0 ∧ s.dlab = true) → t.dll = s.dll) ∧
    (¬ (f.off = 1 ∧ s.dlab = true) → t.dlm = s.dlm) ∧
    (¬ (f.off = 1 ∧ s.dlab = false) → t.ier = s.ier) ∧
    (¬ (f.off = 2) → t.fcr = s.fcr) ∧
    (¬ (f.off = 0 ∧ s.dlab = false) → t.txLog = s.txLog)

/-! ### The window -/

/-- R74: offset `k` of a Port whose base lies `d` above the device's, `d < 8`, is offset `k + d` of the
device while that is at most 7, and outside the window otherwise. -/
def Obligations.OverlappingPortsShiftOffsets : Prop :=
  ∀ (s : State) (w b : Port) (d : Nat) (k : Offset), s.window = some w → d < 8 →
    b.toNat = w.toNat + d →
    (k.toNat + d ≤ 7 → s.offsetOf (portAddr b k) = some (BitVec.ofNat 3 (k.toNat + d))) ∧
    (7 < k.toNat + d → s.offsetOf (portAddr b k) = none)

/-! ### Commands: acceptance and refusals -/

/-- R156, R22: in Idle, on a Port that exists, each command but construct is accepted: the sequencer
becomes Busy at the command's first step and nothing else changes. The temporaries start at 0 (the
model's choice, log entry 10). -/
def Obligations.CommandsAreAcceptedAtTheirFirstStep : Prop :=
  ∀ (s : State) (b : Port), s.seq = .idle → s.base = some b →
    let at_ (cmd : Command) (pc : Label) : State := { s with seq := .busy ⟨cmd, pc, 0#8, 0#8, 0⟩ }
    exec .initializePort s = .next (at_ .initializePort .M1) ∧
    (∀ o, exec (.setFifoOptions o) s = .next (at_ (.setFifoOptions o) .F1)) ∧
    (∀ m, exec (.setInterruptMask m) s = .next (at_ (.setInterruptMask m) .M1)) ∧
    (∀ c, c = 1#16 ∨ c = 2#16 ∨ c = 3#16 →
      exec (.setDivisorSpeed c) s = .next (at_ (.setDivisorSpeed c) .S1)) ∧
    (∀ d st p, p = 0x00#8 ∨ p = 0x04#8 ∨ p = 0x12#8 ∨ p = 0x14#8 ∨ p = 0x1C#8 →
      exec (.setLineOptions d st p) s = .next (at_ (.setLineOptions d st p) .L1)) ∧
    exec .packetReceived s = .next (at_ .packetReceived .P1) ∧
    exec .transmitEmpty s = .next (at_ .transmitEmpty .T1) ∧
    (∀ c, exec (.writeChar c) s = .next (at_ (.writeChar c) .W1)) ∧
    (∀ cs, exec (.writeStr cs) s = .next (at_ (.writeStr cs) .X0))

/-- R192: every command issued while the sequencer is Busy is refused as Reentrant. That construct is
among them, and that Reentrant comes before the refusals of operands, is the model's reading (log entry
17). -/
def Obligations.CommandsOnABusyPortAreReentrant : Prop :=
  ∀ (i : Instr) (s : State) (y : Busy), i.isCommand = true → s.seq = .busy y →
    exec i s = .refused .reentrant

/-- The refusals of R192 for operands: a base above 0xFFF8, a divisor code or a parity code outside its
table. The model's own refusal of a command before any Port exists stands beside them (log entry 8). -/
def Obligations.OperandsOutsideTheTablesAreRefused : Prop :=
  ∀ (s : State) (p : Port), s.seq = .idle →
    (∀ b : Port, 0xFFF8 < b.toNat → exec (.construct b) s = .refused .baseOutOfRange) ∧
    (s.base = some p →
      (∀ c : Divisor, c ≠ 1#16 → c ≠ 2#16 → c ≠ 3#16 →
        exec (.setDivisorSpeed c) s = .refused .notEnumerated) ∧
      (∀ d st q, q ≠ 0x00#8 → q ≠ 0x04#8 → q ≠ 0x12#8 → q ≠ 0x14#8 → q ≠ 0x1C#8 →
        exec (.setLineOptions d st q) s = .refused .notEnumerated)) ∧
    (s.base = none → ∀ i : Instr, i.isCommand = true → (∀ b, i ≠ .construct b) →
      exec i s = .refused .noPort)

/-- R98, R190: on an idle Port an instruction completes exactly when it is well-formed, whatever else the
state holds; nothing faults. -/
def Obligations.WellFormedInstructionsComplete : Prop :=
  ∀ (i : Instr) (s : State) (p : Port), s.seq = .idle → s.base = some p →
    (i.wellFormed = true → ∃ t : State, exec i s = .next t) ∧
    (i.wellFormed = false →
      exec i s = .refused (match i with | .construct _ => .baseOutOfRange | _ => .notEnumerated))

/-! ### Commands: configuration -/

/-- R150: construct sets the base, ends at once with the Port as its result, and performs no access; no
register, no log and no INIT changes. A later construct leaves the device where the first put it (the
model's reading, log entry 7). -/
def Obligations.ConstructSetsTheBaseAlone : Prop :=
  ∀ (s : State) (b : Port), s.seq = .idle → b.toNat ≤ 0xFFF8 →
    exec (.construct b) s =
      .next { s with base := some b, home := some (s.home.getD b), result := .port b }

/-- R150, R61: after an accepted construct the eight register addresses are the base plus 0 to 7, each
within 16 bits. -/
def Obligations.RegisterAddressesAreBasePlusOffset : Prop :=
  ∀ (s t : State) (b : Port), exec (.construct b) s = .next t →
    t.base = some b ∧ ∀ k : Offset, portAddr b k = b.toNat + k.toNat ∧ portAddr b k < 2 ^ 16

/-- R221: no Port exists until construct; after it the sequencer is Idle, INIT is false, the logs are
empty and the device state is still RESET, for every RESET. That the device stands at the Port's base is
the default DEVBASE of R62, which the model fixes at reset and places by the first construct (log entries
7 and 15). -/
def Obligations.StateAfterFirstConstruct : Prop :=
  ∀ (r : Reset) (b : Port), b.toNat ≤ 0xFFF8 →
    (State.resetWith r).base = none ∧
    ∃ t : State, exec (.construct b) (State.resetWith r) = .next t ∧
      t.base = some b ∧ t.window = some b ∧ t.seq = .idle ∧ t.init = false ∧
      t.busLog = [] ∧ t.txLog = [] ∧ t.regs = ⟨r.lcr, r.dll, r.dlm, r.ier, r.fcr⟩

/-- R152: set_fifo_options is one write at offset 2, of any byte, in either mode. -/
def Obligations.SetFifoOptionsWritesFcr : Prop :=
  ∀ (s : State) (b : Port) (o : Byte), s.seq = .idle → s.DeviceAtPort b →
    runCommand (.setFifoOptions o) 1 s =
      .next { s with fcr := o, result := .nothing, busLog := s.busLog ++ [logW 2 s.dlab o] }

/-- R153: set_interrupt_mask is one write at offset 1: with DLAB = 0 it writes IER, with DLAB = 1 it
writes DLM and leaves IER. -/
def Obligations.SetInterruptMaskWritesIerOrDlm : Prop :=
  ∀ (s : State) (b : Port) (m : Byte), s.seq = .idle → s.DeviceAtPort b →
    (s.dlab = false →
      runCommand (.setInterruptMask m) 1 s =
        .next { s with ier := m, result := .nothing, busLog := s.busLog ++ [logW 1 false m] }) ∧
    (s.dlab = true →
      runCommand (.setInterruptMask m) 1 s =
        .next { s with dlm := m, result := .nothing, busLog := s.busLog ++ [logW 1 true m] })

/-- R154: for a listed code and any line-control value the five accesses are read, write of `v | 0x80`,
low byte, high byte, write of `v & 0x7F`; they end with the code in the latch and LCR the value read
with bit 7 cleared. -/
def Obligations.SetDivisorSpeedRunsTheLatchProtocol : Prop :=
  ∀ (s : State) (b : Port) (c : Divisor), s.seq = .idle → s.DeviceAtPort b →
    c = 1#16 ∨ c = 2#16 ∨ c = 3#16 →
    runCommand (.setDivisorSpeed c) 5 s =
      .next { s with
        lcr := s.lcr &&& 0x7F#8, dll := c.setWidth 8, dlm := 0x00#8,
        result := .nothing, readData := s.lcr,
        busLog := s.busLog ++
          [logR 3 s.dlab s.lcr, logW 3 s.dlab (s.lcr ||| 0x80#8), logW 0 true (c.setWidth 8),
           logW 1 true 0x00#8, logW 3 true (s.lcr &&& 0x7F#8)] }

/-- R95, R154 (iv): the datapath of steps S1 to S5 carries any 16-bit divisor, low byte then high byte.
The command accepts 1, 2 and 3 alone (R154); the steps are stated here from S1 on. -/
def Obligations.LatchStepsCarryAnySixteenBitDivisor : Prop :=
  ∀ (s : State) (b : Port) (c : Divisor) (y : Busy), s.seq = .busy y → y.pc = .S1 →
    y.cmd = .setDivisorSpeed c → s.DeviceAtPort b →
    ∃ t : State, seqRun 5 s = .next t ∧ t.seq = .idle ∧
      t.dll = BitVec.ofNat 8 (c.toNat % 256) ∧ t.dlm = BitVec.ofNat 8 (c.toNat / 256) ∧
      t.divisor = c ∧ t.lcr = s.lcr &&& 0x7F#8 ∧ t.ier = s.ier ∧ t.fcr = s.fcr ∧ t.txLog = s.txLog

/-- R154 (iii), R71: with a line-control write of another agent between the steps, S3 and S4 fall to THR
and IER when it cleared bit 7, and S5 overwrites it with the stale `v` whatever it wrote. -/
def Obligations.InterveningLineControlWriteMisdirectsTheDivisor : Prop :=
  ∀ (s : State) (b : Port) (c : Divisor) (y : Busy), s.seq = .busy y → y.cmd = .setDivisorSpeed c →
    s.DeviceAtPort b →
    (y.pc = .S3 → s.dlab = false →
      ∃ t : State, seqMove s = .next t ∧ t.txLog = s.txLog ++ [c.setWidth 8] ∧ t.regs = s.regs) ∧
    (y.pc = .S4 → s.dlab = false →
      ∃ t : State, seqMove s = .next t ∧
        t.regs = { s.regs with ier := BitVec.ofNat 8 (c.toNat / 256) } ∧ t.txLog = s.txLog) ∧
    (y.pc = .S5 →
      ∃ t : State, seqMove s = .next t ∧ t.regs = { s.regs with lcr := y.v &&& 0x7F#8 } ∧
        t.txLog = s.txLog ∧ t.seq = .idle)

/-- R155: set_line_options is one write at offset 3 of the bitwise union of the data byte, 0x02 when
stop_bits is true, and the parity code; it replaces the whole of LCR. A parity outside the five codes is
refused. -/
def Obligations.SetLineOptionsWritesTheUnion : Prop :=
  ∀ (s : State) (b : Port) (d : Byte) (st : Bool) (p : Byte), s.seq = .idle → s.DeviceAtPort b →
    (p = 0x00#8 ∨ p = 0x04#8 ∨ p = 0x12#8 ∨ p = 0x14#8 ∨ p = 0x1C#8 →
      let byte : Byte := d ||| (if st then 0x02#8 else 0x00#8) ||| p
      ∃ t : State,
        runCommand (.setLineOptions d st p) 1 s = .next t ∧
        t = { s with lcr := byte, result := .nothing, busLog := s.busLog ++ [logW 3 s.dlab byte] } ∧
        t.dlab = d[7]) ∧
    (p ≠ 0x00#8 → p ≠ 0x04#8 → p ≠ 0x12#8 → p ≠ 0x14#8 → p ≠ 0x1C#8 →
      exec (.setLineOptions d st p) s = .refused .notEnumerated)

/-- R97: for every in-range data value and listed parity code the line byte leaves DLAB clear, and the
latch-open and latch-close values change bit 7 alone. -/
def Obligations.LineBytesChangeTheLatchAsSaid : Prop :=
  (∀ (d : Byte) (st : Bool) (p : Byte), d.toNat ≤ 3 → parityListed p = true →
    (lineByte d st p)[7] = false) ∧
  ∀ (v : Byte),
    (latchOpen v)[7] = true ∧ (latchClose v)[7] = false ∧
    ∀ k, k < 7 → (latchOpen v).getLsbD k = v.getLsbD k ∧ (latchClose v).getLsbD k = v.getLsbD k

/-- R151, R223: initialize makes its eight accesses in order and ends in the state of R223: IER is 0x00
when DLAB was 0 at entry and unchanged otherwise, the rest the same in both modes. -/
def Obligations.InitializeReachesItsDefinedState : Prop :=
  ∀ (s : State) (b : Port), s.seq = .idle → s.DeviceAtPort b →
    runCommand .initializePort 8 s =
      .next { s with
        lcr := 0x07#8, dll := 0x03#8, dlm := 0x00#8, ier := if s.dlab then s.ier else 0x00#8,
        fcr := 0xC7#8, init := true, result := .nothing, readData := s.lcr,
        busLog := s.busLog ++
          [logW 1 s.dlab 0x00#8, logR 3 s.dlab s.lcr, logW 3 s.dlab (s.lcr ||| 0x80#8),
           logW 0 true 0x03#8, logW 1 true 0x00#8, logW 3 true (s.lcr &&& 0x7F#8),
           logW 3 false 0x07#8, logW 2 false 0xC7#8] }

/-! ### Commands: status and transmit -/

/-- R170: packet_received is one read at offset 5; its result is bit 0 of the answer. -/
def Obligations.PacketReceivedReportsBitZero : Prop :=
  ∀ (s : State) (b : Port), s.seq = .idle → s.DeviceAtPort b →
    runCommand .packetReceived 1 s =
      .next { s with
        result := .flag ((s.upcoming 0)[0]), readData := s.upcoming 0,
        env := { s.env with answers := s.env.answers.drop 1, drawn := s.env.drawn + 1 },
        busLog := s.busLog ++ [logR 5 s.dlab (s.upcoming 0)] }

/-- R171: transmit_empty is one read at offset 5; its result is bit 5 of the answer. -/
def Obligations.TransmitEmptyReportsBitFive : Prop :=
  ∀ (s : State) (b : Port), s.seq = .idle → s.DeviceAtPort b →
    runCommand .transmitEmpty 1 s =
      .next { s with
        result := .flag ((s.upcoming 0)[5]), readData := s.upcoming 0,
        env := { s.env with answers := s.env.answers.drop 1, drawn := s.env.drawn + 1 },
        busLog := s.busLog ++ [logR 5 s.dlab (s.upcoming 0)] }

/-- R172: if the first `n` answers have bit 5 clear, write_char is still polling after `n` turns and has
written nothing; if the next one has it set, the command ends after two more turns with the `n + 1`
reads and exactly one write at offset 0, of the character's low byte, in the log. With DLAB = 1 the byte
goes to the divisor latch. -/
def Obligations.WriteCharPollsThenWritesTheLowByte : Prop :=
  ∀ (s : State) (b : Port) (c : CharCode) (n : Nat), s.seq = .idle → s.DeviceAtPort b →
    (∀ k, k < n → s.upcoming k &&& 0x20#8 = 0#8) →
    let polls (m : Nat) : List BusEntry := (List.range m).map fun k => logR 5 s.dlab (s.upcoming k)
    let low : Byte := c.setWidth 8
    (∃ (t : State) (y : Busy), runCommand (.writeChar c) n s = .next t ∧
      t.seq = .busy y ∧ y.pc = .W1 ∧ t.regs = s.regs ∧ t.txLog = s.txLog ∧
      t.busLog = s.busLog ++ polls n) ∧
    (s.upcoming n &&& 0x20#8 ≠ 0#8 →
      runCommand (.writeChar c) (n + 2) s =
        .next { s with
          dll := if s.dlab then low else s.dll,
          txLog := if s.dlab then s.txLog else s.txLog ++ [low],
          result := .nothing, readData := s.upcoming n,
          env := { s.env with answers := s.env.answers.drop (n + 1), drawn := s.env.drawn + (n + 1) },
          busLog := s.busLog ++ polls (n + 1) ++ [logW 0 s.dlab low] })

/-- R172 (ii), R229: the wait is unbounded. For every number of turns some environment keeps write_char
polling that long, from any idle state, with or without a device at the Port. -/
def Obligations.WriteCharMayPollForAnyNumberOfTurns : Prop :=
  ∀ (s : State) (b : Port) (c : CharCode) (n : Nat), s.seq = .idle → s.base = some b →
    (s.window = some b ∨ s.window = none) →
    ∃ (e : Env) (t : State) (y : Busy),
      runCommand (.writeChar c) n { s with env := e } = .next t ∧ t.seq = .busy y ∧ y.pc = .W1 ∧
      t.txLog = s.txLog ∧ t.regs = s.regs

/-- R173: write_str sends its characters in order, each after its own polls. `polls` lists for each
character the answers with bit 5 clear and the one with it set; the answers ahead are their
concatenation. The log is the concatenation of the characters' logs: exactly one write at offset 0 for
each. With no characters nothing is accessed. With DLAB = 1 the bytes go to the divisor latch. -/
def Obligations.WriteStrSendsEachCharacterInOrder : Prop :=
  ∀ (s : State) (b : Port) (cs : List CharCode) (polls : List (List Byte × Byte)),
    s.seq = .idle → s.DeviceAtPort b → polls.length = cs.length →
    (∀ p ∈ polls, (∀ x ∈ p.1, x &&& 0x20#8 = 0#8) ∧ p.2 &&& 0x20#8 ≠ 0#8) →
    let answers : List Byte := polls.flatMap fun p => p.1 ++ [p.2]
    s.ahead answers.length = answers →
    runCommand (.writeStr cs) (answers.length + 2 * cs.length + 1) s =
      .next { s with
        dll := if s.dlab then ((cs.map (·.setWidth 8)).getLast?).getD s.dll else s.dll,
        txLog := if s.dlab then s.txLog else s.txLog ++ cs.map (·.setWidth 8),
        result := .nothing, readData := ((polls.map Prod.snd).getLast?).getD s.readData,
        env := { s.env with answers := s.env.answers.drop answers.length,
                            drawn := s.env.drawn + answers.length },
        busLog := s.busLog ++ (cs.zip polls).flatMap fun q =>
          (q.2.1 ++ [q.2.2]).map (logR 5 s.dlab) ++ [logW 0 s.dlab (q.1.setWidth 8)] }

/-! ### Commands on a Port with no device -/

/-- R62, R141: with no device at the Port's addresses the commands but write_char and write_str end after
their steps with no register and no log changed. Each read is a draw: packet_received and
transmit_empty report its bit, set_divisor_speed and initialize read `v` from it. initialize sets INIT all
the same (R35). -/
def Obligations.CommandsWithNoDeviceStoreNothing : Prop :=
  ∀ (s : State) (b : Port), s.seq = .idle → s.NoDeviceAtPort b →
    let ended (r : CmdResult) : State := { s with result := r }
    let drawn (r : CmdResult) : State :=
      { s with
        result := r, readData := s.upcoming 0,
        env := { s.env with answers := s.env.answers.drop 1, drawn := s.env.drawn + 1 } }
    (∀ o, runCommand (.setFifoOptions o) 1 s = .next (ended .nothing)) ∧
    (∀ m, runCommand (.setInterruptMask m) 1 s = .next (ended .nothing)) ∧
    (∀ c, c = 1#16 ∨ c = 2#16 ∨ c = 3#16 →
      runCommand (.setDivisorSpeed c) 5 s = .next (drawn .nothing)) ∧
    (∀ d st p, p = 0x00#8 ∨ p = 0x04#8 ∨ p = 0x12#8 ∨ p = 0x14#8 ∨ p = 0x1C#8 →
      runCommand (.setLineOptions d st p) 1 s = .next (ended .nothing)) ∧
    runCommand .initializePort 8 s = .next { drawn .nothing with init := true } ∧
    runCommand .packetReceived 1 s = .next (drawn (.flag ((s.upcoming 0)[0]))) ∧
    runCommand .transmitEmpty 1 s = .next (drawn (.flag ((s.upcoming 0)[5])))

/-- R141, R172, program P6: with no device at the Port's addresses write_char polls draws that are not
logged, as long as bit 5 is clear, and once it is set ends with nothing stored and nothing logged. -/
def Obligations.WriteCharWithNoDeviceStoresNothing : Prop :=
  ∀ (s : State) (b : Port) (c : CharCode) (n : Nat), s.seq = .idle → s.NoDeviceAtPort b →
    (∀ k, k < n → s.upcoming k &&& 0x20#8 = 0#8) →
    (∃ (t : State) (y : Busy), runCommand (.writeChar c) n s = .next t ∧
      t.seq = .busy y ∧ y.pc = .W1 ∧ t.regs = s.regs ∧ t.txLog = s.txLog ∧ t.busLog = s.busLog) ∧
    (s.upcoming n &&& 0x20#8 ≠ 0#8 →
      runCommand (.writeChar c) (n + 2) s =
        .next { s with
          result := .nothing, readData := s.upcoming n,
          env := { s.env with answers := s.env.answers.drop (n + 1),
                              drawn := s.env.drawn + (n + 1) } })

/-- R141, R173: with no device at the Port's addresses write_str polls for each character and ends with
nothing stored and nothing logged. `polls` is as in WriteStrSendsEachCharacterInOrder. -/
def Obligations.WriteStrWithNoDeviceStoresNothing : Prop :=
  ∀ (s : State) (b : Port) (cs : List CharCode) (polls : List (List Byte × Byte)),
    s.seq = .idle → s.NoDeviceAtPort b → polls.length = cs.length →
    (∀ p ∈ polls, (∀ x ∈ p.1, x &&& 0x20#8 = 0#8) ∧ p.2 &&& 0x20#8 ≠ 0#8) →
    let answers : List Byte := polls.flatMap fun p => p.1 ++ [p.2]
    s.ahead answers.length = answers →
    runCommand (.writeStr cs) (answers.length + 2 * cs.length + 1) s =
      .next { s with
        result := .nothing, readData := ((polls.map Prod.snd).getLast?).getD s.readData,
        env := { s.env with answers := s.env.answers.drop answers.length,
                            drawn := s.env.drawn + answers.length } }

/-! ### A step -/

/-- When the image at the head of the queue decodes to a command and its issuer need not wait, the step
is exec of that command, and a moment passes. Queue and image are the model's own (log entries 3, 13). -/
def Obligations.StepRunsTheIssuedCommand : Prop :=
  ∀ (s : State) (who : Agent) (image : List Byte) (rest : List Event) (i : Instr),
    s.events = .issue who (.command image) :: rest → (who = .other ∨ s.seq = .idle) →
    decode image = .ok i → i.isCommand = true →
    step s = Result.laterOne (exec i { s with events := rest })

/-- R140: when a byte access at the head of the queue falls in the window and its issuer need not wait,
the step is exec of the instruction that direction, offset and DLAB select, and a moment passes. The
queue is the model's own (log entry 13). -/
def Obligations.StepRunsTheDecodedAccess : Prop :=
  ∀ (s : State) (who : Agent) (a : BusAccess) (rest : List Event) (w : Port),
    s.events = .issue who (.access a) :: rest → (who = .other ∨ s.seq = .idle) →
    a.extra = 0 → s.window = some w → w.toNat ≤ a.addr.toNat → a.addr.toNat ≤ w.toNat + 7 →
    step s = Result.laterOne
      (exec (decodeSel (selector a.dir (BitVec.ofNat 3 (a.addr.toNat - w.toNat)) s.dlab) a.data)
        { s with events := rest })

/-- R141: a byte access that reaches no device is a draw for a read and nothing for a write; no stored
state changes and nothing is logged. -/
def Obligations.StepAnswersAnAccessToNoDevice : Prop :=
  ∀ (s : State) (who : Agent) (a : BusAccess) (rest : List Event),
    s.events = .issue who (.access a) :: rest → (who = .other ∨ s.seq = .idle) → a.extra = 0 →
    (∀ w : Port, s.window = some w → a.addr.toNat < w.toNat ∨ w.toNat + 7 < a.addr.toNat) →
    step s = Result.laterOne (.next (
      match a.dir with
      | .read =>
        { s with events := rest, readData := s.upcoming 0,
                 env := { s.env with answers := s.env.answers.drop 1, drawn := s.env.drawn + 1 } }
      | .write => { s with events := rest }))

/-- R65: an access wider than a byte that touches the window is refused. -/
def Obligations.WideAccessToTheWindowIsRefused : Prop :=
  ∀ (s : State) (who : Agent) (a : BusAccess) (rest : List Event) (w : Port) (k : Nat),
    s.events = .issue who (.access a) :: rest → (who = .other ∨ s.seq = .idle) →
    s.window = some w → k ≤ 7 → 0 < a.extra → a.addr.toNat ≤ w.toNat + k →
    w.toNat + k ≤ a.addr.toNat + a.extra →
    step s = .refused .wideAccess

/-- R11, R156: the step of a Busy machine is one micro-step when nothing else is due: the queue is empty,
the sequencer has its turn, or the host's next item waits (the queue is the model's own, log entry 13). -/
def Obligations.StepTurnsTheBusySequencer : Prop :=
  ∀ (s : State) (y : Busy), s.seq = .busy y →
    (s.events = [] → step s = Result.laterOne (microStep y s)) ∧
    (∀ rest, s.events = .turn :: rest →
      step s = Result.laterOne (microStep y { s with events := rest })) ∧
    (∀ what rest, s.events = .issue .host what :: rest → step s = Result.laterOne (microStep y s))

/-! ### Whole-machine rules -/

/-- The invariant holds at reset, for every RESET. -/
def Obligations.ResetMeetsTheInvariant : Prop :=
  (∀ r : Reset, (State.resetWith r).Inv) ∧ State.reset.Inv

/-- Every step keeps the invariant: legal bases, a sequencer at a label of its command, TXLOG the
sub-list of BUSLOG that R32 says. -/
def Obligations.StepKeepsTheInvariant : Prop :=
  ∀ s t : State, s.Inv → step s = .next t → t.Inv

/-- No step from a state that meets the invariant faults (R190; `93_implementation_defined.md`: the
treatment stuck is used nowhere). -/
def Obligations.NoStepFaults : Prop :=
  ∀ (s : State) (e : Fault), s.Inv → step s ≠ .fault e

/-- R32, R156: the logs only grow, by at most one access a step, and TXLOG by exactly the bytes that
access writes at offset 0 while DLAB = 0. -/
def Obligations.LogsOnlyGrowByOneAccess : Prop :=
  ∀ s t : State, step s = .next t →
    ∃ es : List BusEntry, es.length ≤ 1 ∧ t.busLog = s.busLog ++ es ∧
      t.txLog = s.txLog ++ es.filterMap BusEntry.sent

/-- R69 (d): the device state is the one that the log gives: a step changes the stored registers exactly
as the accesses it logs do, each decoded with DLAB as it was when the access arrived. No access is lost,
merged or reordered, whoever made it. -/
def Obligations.RegistersFollowTheBusLog : Prop :=
  ∀ s t : State, step s = .next t →
    ∃ es : List BusEntry, t.busLog = s.busLog ++ es ∧ t.regs = es.foldl Regs.after s.regs ∧
      ∀ e ∈ es, e.dlab = s.dlab

/-- R35: INIT is never cleared, and only the last step of initialize sets it. -/
def Obligations.InitIsSetByInitializeAlone : Prop :=
  ∀ s t : State, step s = .next t →
    (s.init = true → t.init = true) ∧
    (s.init = false → t.init = true →
      ∃ y : Busy, s.seq = .busy y ∧ y.cmd = .initializePort ∧ y.pc = .F1)

/-- The parameters never change (R6), the device's place once fixed stays, and only a construct changes
the base (R21). -/
def Obligations.ParametersAndPlaceAreFixed : Prop :=
  ∀ s t : State, step s = .next t →
    t.params = s.params ∧ (∀ h, s.home = some h → t.home = some h) ∧
    (t.base ≠ s.base → ∃ b, t.base = some b ∧ t.result = .port b ∧ t.seq = .idle ∧ s.seq = .idle)

/-- R62, R141 for whole runs: with no device no step changes a stored register or a log, whatever the
sequencer and the agents do. -/
def Obligations.NothingIsStoredWithoutADevice : Prop :=
  ∀ s t : State, s.params.devBase = .absent → step s = .next t →
    t.regs = s.regs ∧ t.busLog = s.busLog ∧ t.txLog = s.txLog

/-- R194: while IER is 0x00 the interrupt request is false; otherwise it is a draw, the free value of the
moment (log entry 2). -/
def Obligations.IrqIsLowWhileNoSourceIsArmed : Prop :=
  ∀ s : State, (s.ier = 0x00#8 → s.irq = false) ∧
    (s.ier ≠ 0x00#8 → s.irq = Config.freeIrq s.env.moment)

/-- R194: from a state with IER 0x00 the interrupt request stays false over a step unless the step writes
a non-zero byte at offset 1 with DLAB = 0; and IER changes by no other access. -/
def Obligations.IrqStaysLowUntilAMaskIsWritten : Prop :=
  ∀ s t : State, step s = .next t →
    (t.ier ≠ s.ier → t.busLog = s.busLog ++ [logW 1 false t.ier]) ∧
    (s.ier = 0x00#8 → (∀ m : Byte, m ≠ 0x00#8 → t.busLog ≠ s.busLog ++ [logW 1 false m]) →
      t.irq = false)

/-- R225: DLAB is set only by a write to LCR with bit 7 set. -/
def Obligations.DlabIsSetOnlyByALineControlWrite : Prop :=
  ∀ s t : State, step s = .next t → t.lcr ≠ s.lcr →
    t.busLog = s.busLog ++ [logW 3 s.dlab t.lcr]
end

