-- ==== Sys2Proof/Laws/State.lean ====
section
/-! SUPPORT. One lemma per field per named update of the state, each true by `rfl`, so that no proof
unfolds a record update. -/

namespace Sys2Proof.Machine

section
variable (s : State)

/-! #### afterDraws -/

@[simp] theorem State.afterDraws_lcr (n : Nat) : (s.afterDraws n).lcr = s.lcr := rfl
@[simp] theorem State.afterDraws_dll (n : Nat) : (s.afterDraws n).dll = s.dll := rfl
@[simp] theorem State.afterDraws_dlm (n : Nat) : (s.afterDraws n).dlm = s.dlm := rfl
@[simp] theorem State.afterDraws_ier (n : Nat) : (s.afterDraws n).ier = s.ier := rfl
@[simp] theorem State.afterDraws_fcr (n : Nat) : (s.afterDraws n).fcr = s.fcr := rfl
@[simp] theorem State.afterDraws_base (n : Nat) : (s.afterDraws n).base = s.base := rfl
@[simp] theorem State.afterDraws_home (n : Nat) : (s.afterDraws n).home = s.home := rfl
@[simp] theorem State.afterDraws_init (n : Nat) : (s.afterDraws n).init = s.init := rfl
@[simp] theorem State.afterDraws_seq (n : Nat) : (s.afterDraws n).seq = s.seq := rfl
@[simp] theorem State.afterDraws_result (n : Nat) : (s.afterDraws n).result = s.result := rfl
@[simp] theorem State.afterDraws_readData (n : Nat) : (s.afterDraws n).readData = s.readData := rfl
@[simp] theorem State.afterDraws_busLog (n : Nat) : (s.afterDraws n).busLog = s.busLog := rfl
@[simp] theorem State.afterDraws_txLog (n : Nat) : (s.afterDraws n).txLog = s.txLog := rfl
@[simp] theorem State.afterDraws_env (n : Nat) : (s.afterDraws n).env = { s.env with answers := s.env.answers.drop n, drawn := s.env.drawn + n } := rfl
@[simp] theorem State.afterDraws_events (n : Nat) : (s.afterDraws n).events = s.events := rfl
@[simp] theorem State.afterDraws_params (n : Nat) : (s.afterDraws n).params = s.params := rfl
@[simp] theorem State.afterDraws_dlab (n : Nat) : (s.afterDraws n).dlab = s.dlab := rfl
@[simp] theorem State.afterDraws_window (n : Nat) : (s.afterDraws n).window = s.window := rfl
@[simp] theorem State.afterDraws_regs (n : Nat) : (s.afterDraws n).regs = s.regs := rfl

/-! #### logRead -/

@[simp] theorem State.logRead_lcr (k : Offset) (b : Byte) : (s.logRead k b).lcr = s.lcr := rfl
@[simp] theorem State.logRead_dll (k : Offset) (b : Byte) : (s.logRead k b).dll = s.dll := rfl
@[simp] theorem State.logRead_dlm (k : Offset) (b : Byte) : (s.logRead k b).dlm = s.dlm := rfl
@[simp] theorem State.logRead_ier (k : Offset) (b : Byte) : (s.logRead k b).ier = s.ier := rfl
@[simp] theorem State.logRead_fcr (k : Offset) (b : Byte) : (s.logRead k b).fcr = s.fcr := rfl
@[simp] theorem State.logRead_base (k : Offset) (b : Byte) : (s.logRead k b).base = s.base := rfl
@[simp] theorem State.logRead_home (k : Offset) (b : Byte) : (s.logRead k b).home = s.home := rfl
@[simp] theorem State.logRead_init (k : Offset) (b : Byte) : (s.logRead k b).init = s.init := rfl
@[simp] theorem State.logRead_seq (k : Offset) (b : Byte) : (s.logRead k b).seq = s.seq := rfl
@[simp] theorem State.logRead_result (k : Offset) (b : Byte) : (s.logRead k b).result = s.result := rfl
@[simp] theorem State.logRead_readData (k : Offset) (b : Byte) : (s.logRead k b).readData = b := rfl
@[simp] theorem State.logRead_busLog (k : Offset) (b : Byte) : (s.logRead k b).busLog = s.busLog ++ [⟨.read, k, s.dlab, b⟩] := rfl
@[simp] theorem State.logRead_txLog (k : Offset) (b : Byte) : (s.logRead k b).txLog = s.txLog := rfl
@[simp] theorem State.logRead_env (k : Offset) (b : Byte) : (s.logRead k b).env = s.env := rfl
@[simp] theorem State.logRead_upcoming (k : Offset) (b : Byte) : (s.logRead k b).upcoming = s.upcoming := rfl
@[simp] theorem State.logRead_events (k : Offset) (b : Byte) : (s.logRead k b).events = s.events := rfl
@[simp] theorem State.logRead_params (k : Offset) (b : Byte) : (s.logRead k b).params = s.params := rfl
@[simp] theorem State.logRead_dlab (k : Offset) (b : Byte) : (s.logRead k b).dlab = s.dlab := rfl
@[simp] theorem State.logRead_window (k : Offset) (b : Byte) : (s.logRead k b).window = s.window := rfl
@[simp] theorem State.logRead_regs (k : Offset) (b : Byte) : (s.logRead k b).regs = s.regs := rfl

/-! #### logWrite -/

@[simp] theorem State.logWrite_lcr (k : Offset) (b : Byte) : (s.logWrite k b).lcr = s.lcr := rfl
@[simp] theorem State.logWrite_dll (k : Offset) (b : Byte) : (s.logWrite k b).dll = s.dll := rfl
@[simp] theorem State.logWrite_dlm (k : Offset) (b : Byte) : (s.logWrite k b).dlm = s.dlm := rfl
@[simp] theorem State.logWrite_ier (k : Offset) (b : Byte) : (s.logWrite k b).ier = s.ier := rfl
@[simp] theorem State.logWrite_fcr (k : Offset) (b : Byte) : (s.logWrite k b).fcr = s.fcr := rfl
@[simp] theorem State.logWrite_base (k : Offset) (b : Byte) : (s.logWrite k b).base = s.base := rfl
@[simp] theorem State.logWrite_home (k : Offset) (b : Byte) : (s.logWrite k b).home = s.home := rfl
@[simp] theorem State.logWrite_init (k : Offset) (b : Byte) : (s.logWrite k b).init = s.init := rfl
@[simp] theorem State.logWrite_seq (k : Offset) (b : Byte) : (s.logWrite k b).seq = s.seq := rfl
@[simp] theorem State.logWrite_result (k : Offset) (b : Byte) : (s.logWrite k b).result = s.result := rfl
@[simp] theorem State.logWrite_readData (k : Offset) (b : Byte) : (s.logWrite k b).readData = s.readData := rfl
@[simp] theorem State.logWrite_busLog (k : Offset) (b : Byte) : (s.logWrite k b).busLog = s.busLog ++ [⟨.write, k, s.dlab, b⟩] := rfl
@[simp] theorem State.logWrite_txLog (k : Offset) (b : Byte) : (s.logWrite k b).txLog = s.txLog := rfl
@[simp] theorem State.logWrite_env (k : Offset) (b : Byte) : (s.logWrite k b).env = s.env := rfl
@[simp] theorem State.logWrite_upcoming (k : Offset) (b : Byte) : (s.logWrite k b).upcoming = s.upcoming := rfl
@[simp] theorem State.logWrite_events (k : Offset) (b : Byte) : (s.logWrite k b).events = s.events := rfl
@[simp] theorem State.logWrite_params (k : Offset) (b : Byte) : (s.logWrite k b).params = s.params := rfl
@[simp] theorem State.logWrite_dlab (k : Offset) (b : Byte) : (s.logWrite k b).dlab = s.dlab := rfl
@[simp] theorem State.logWrite_window (k : Offset) (b : Byte) : (s.logWrite k b).window = s.window := rfl
@[simp] theorem State.logWrite_regs (k : Offset) (b : Byte) : (s.logWrite k b).regs = s.regs := rfl

/-! #### transmit -/

@[simp] theorem State.transmit_lcr (d : Byte) : (s.transmit d).lcr = s.lcr := rfl
@[simp] theorem State.transmit_dll (d : Byte) : (s.transmit d).dll = s.dll := rfl
@[simp] theorem State.transmit_dlm (d : Byte) : (s.transmit d).dlm = s.dlm := rfl
@[simp] theorem State.transmit_ier (d : Byte) : (s.transmit d).ier = s.ier := rfl
@[simp] theorem State.transmit_fcr (d : Byte) : (s.transmit d).fcr = s.fcr := rfl
@[simp] theorem State.transmit_base (d : Byte) : (s.transmit d).base = s.base := rfl
@[simp] theorem State.transmit_home (d : Byte) : (s.transmit d).home = s.home := rfl
@[simp] theorem State.transmit_init (d : Byte) : (s.transmit d).init = s.init := rfl
@[simp] theorem State.transmit_seq (d : Byte) : (s.transmit d).seq = s.seq := rfl
@[simp] theorem State.transmit_result (d : Byte) : (s.transmit d).result = s.result := rfl
@[simp] theorem State.transmit_readData (d : Byte) : (s.transmit d).readData = s.readData := rfl
@[simp] theorem State.transmit_busLog (d : Byte) : (s.transmit d).busLog = s.busLog := rfl
@[simp] theorem State.transmit_txLog (d : Byte) : (s.transmit d).txLog = s.txLog ++ [d] := rfl
@[simp] theorem State.transmit_env (d : Byte) : (s.transmit d).env = s.env := rfl
@[simp] theorem State.transmit_upcoming (d : Byte) : (s.transmit d).upcoming = s.upcoming := rfl
@[simp] theorem State.transmit_events (d : Byte) : (s.transmit d).events = s.events := rfl
@[simp] theorem State.transmit_params (d : Byte) : (s.transmit d).params = s.params := rfl
@[simp] theorem State.transmit_dlab (d : Byte) : (s.transmit d).dlab = s.dlab := rfl
@[simp] theorem State.transmit_window (d : Byte) : (s.transmit d).window = s.window := rfl
@[simp] theorem State.transmit_regs (d : Byte) : (s.transmit d).regs = s.regs := rfl

/-! #### setDll -/

@[simp] theorem State.setDll_lcr (d : Byte) : (s.setDll d).lcr = s.lcr := rfl
@[simp] theorem State.setDll_dll (d : Byte) : (s.setDll d).dll = d := rfl
@[simp] theorem State.setDll_dlm (d : Byte) : (s.setDll d).dlm = s.dlm := rfl
@[simp] theorem State.setDll_ier (d : Byte) : (s.setDll d).ier = s.ier := rfl
@[simp] theorem State.setDll_fcr (d : Byte) : (s.setDll d).fcr = s.fcr := rfl
@[simp] theorem State.setDll_base (d : Byte) : (s.setDll d).base = s.base := rfl
@[simp] theorem State.setDll_home (d : Byte) : (s.setDll d).home = s.home := rfl
@[simp] theorem State.setDll_init (d : Byte) : (s.setDll d).init = s.init := rfl
@[simp] theorem State.setDll_seq (d : Byte) : (s.setDll d).seq = s.seq := rfl
@[simp] theorem State.setDll_result (d : Byte) : (s.setDll d).result = s.result := rfl
@[simp] theorem State.setDll_readData (d : Byte) : (s.setDll d).readData = s.readData := rfl
@[simp] theorem State.setDll_busLog (d : Byte) : (s.setDll d).busLog = s.busLog := rfl
@[simp] theorem State.setDll_txLog (d : Byte) : (s.setDll d).txLog = s.txLog := rfl
@[simp] theorem State.setDll_env (d : Byte) : (s.setDll d).env = s.env := rfl
@[simp] theorem State.setDll_upcoming (d : Byte) : (s.setDll d).upcoming = s.upcoming := rfl
@[simp] theorem State.setDll_events (d : Byte) : (s.setDll d).events = s.events := rfl
@[simp] theorem State.setDll_params (d : Byte) : (s.setDll d).params = s.params := rfl
@[simp] theorem State.setDll_dlab (d : Byte) : (s.setDll d).dlab = s.dlab := rfl
@[simp] theorem State.setDll_window (d : Byte) : (s.setDll d).window = s.window := rfl

/-! #### setDlm -/

@[simp] theorem State.setDlm_lcr (d : Byte) : (s.setDlm d).lcr = s.lcr := rfl
@[simp] theorem State.setDlm_dll (d : Byte) : (s.setDlm d).dll = s.dll := rfl
@[simp] theorem State.setDlm_dlm (d : Byte) : (s.setDlm d).dlm = d := rfl
@[simp] theorem State.setDlm_ier (d : Byte) : (s.setDlm d).ier = s.ier := rfl
@[simp] theorem State.setDlm_fcr (d : Byte) : (s.setDlm d).fcr = s.fcr := rfl
@[simp] theorem State.setDlm_base (d : Byte) : (s.setDlm d).base = s.base := rfl
@[simp] theorem State.setDlm_home (d : Byte) : (s.setDlm d).home = s.home := rfl
@[simp] theorem State.setDlm_init (d : Byte) : (s.setDlm d).init = s.init := rfl
@[simp] theorem State.setDlm_seq (d : Byte) : (s.setDlm d).seq = s.seq := rfl
@[simp] theorem State.setDlm_result (d : Byte) : (s.setDlm d).result = s.result := rfl
@[simp] theorem State.setDlm_readData (d : Byte) : (s.setDlm d).readData = s.readData := rfl
@[simp] theorem State.setDlm_busLog (d : Byte) : (s.setDlm d).busLog = s.busLog := rfl
@[simp] theorem State.setDlm_txLog (d : Byte) : (s.setDlm d).txLog = s.txLog := rfl
@[simp] theorem State.setDlm_env (d : Byte) : (s.setDlm d).env = s.env := rfl
@[simp] theorem State.setDlm_upcoming (d : Byte) : (s.setDlm d).upcoming = s.upcoming := rfl
@[simp] theorem State.setDlm_events (d : Byte) : (s.setDlm d).events = s.events := rfl
@[simp] theorem State.setDlm_params (d : Byte) : (s.setDlm d).params = s.params := rfl
@[simp] theorem State.setDlm_dlab (d : Byte) : (s.setDlm d).dlab = s.dlab := rfl
@[simp] theorem State.setDlm_window (d : Byte) : (s.setDlm d).window = s.window := rfl

/-! #### setIer -/

@[simp] theorem State.setIer_lcr (d : Byte) : (s.setIer d).lcr = s.lcr := rfl
@[simp] theorem State.setIer_dll (d : Byte) : (s.setIer d).dll = s.dll := rfl
@[simp] theorem State.setIer_dlm (d : Byte) : (s.setIer d).dlm = s.dlm := rfl
@[simp] theorem State.setIer_ier (d : Byte) : (s.setIer d).ier = d := rfl
@[simp] theorem State.setIer_fcr (d : Byte) : (s.setIer d).fcr = s.fcr := rfl
@[simp] theorem State.setIer_base (d : Byte) : (s.setIer d).base = s.base := rfl
@[simp] theorem State.setIer_home (d : Byte) : (s.setIer d).home = s.home := rfl
@[simp] theorem State.setIer_init (d : Byte) : (s.setIer d).init = s.init := rfl
@[simp] theorem State.setIer_seq (d : Byte) : (s.setIer d).seq = s.seq := rfl
@[simp] theorem State.setIer_result (d : Byte) : (s.setIer d).result = s.result := rfl
@[simp] theorem State.setIer_readData (d : Byte) : (s.setIer d).readData = s.readData := rfl
@[simp] theorem State.setIer_busLog (d : Byte) : (s.setIer d).busLog = s.busLog := rfl
@[simp] theorem State.setIer_txLog (d : Byte) : (s.setIer d).txLog = s.txLog := rfl
@[simp] theorem State.setIer_env (d : Byte) : (s.setIer d).env = s.env := rfl
@[simp] theorem State.setIer_upcoming (d : Byte) : (s.setIer d).upcoming = s.upcoming := rfl
@[simp] theorem State.setIer_events (d : Byte) : (s.setIer d).events = s.events := rfl
@[simp] theorem State.setIer_params (d : Byte) : (s.setIer d).params = s.params := rfl
@[simp] theorem State.setIer_dlab (d : Byte) : (s.setIer d).dlab = s.dlab := rfl
@[simp] theorem State.setIer_window (d : Byte) : (s.setIer d).window = s.window := rfl

/-! #### setFcr -/

@[simp] theorem State.setFcr_lcr (d : Byte) : (s.setFcr d).lcr = s.lcr := rfl
@[simp] theorem State.setFcr_dll (d : Byte) : (s.setFcr d).dll = s.dll := rfl
@[simp] theorem State.setFcr_dlm (d : Byte) : (s.setFcr d).dlm = s.dlm := rfl
@[simp] theorem State.setFcr_ier (d : Byte) : (s.setFcr d).ier = s.ier := rfl
@[simp] theorem State.setFcr_fcr (d : Byte) : (s.setFcr d).fcr = d := rfl
@[simp] theorem State.setFcr_base (d : Byte) : (s.setFcr d).base = s.base := rfl
@[simp] theorem State.setFcr_home (d : Byte) : (s.setFcr d).home = s.home := rfl
@[simp] theorem State.setFcr_init (d : Byte) : (s.setFcr d).init = s.init := rfl
@[simp] theorem State.setFcr_seq (d : Byte) : (s.setFcr d).seq = s.seq := rfl
@[simp] theorem State.setFcr_result (d : Byte) : (s.setFcr d).result = s.result := rfl
@[simp] theorem State.setFcr_readData (d : Byte) : (s.setFcr d).readData = s.readData := rfl
@[simp] theorem State.setFcr_busLog (d : Byte) : (s.setFcr d).busLog = s.busLog := rfl
@[simp] theorem State.setFcr_txLog (d : Byte) : (s.setFcr d).txLog = s.txLog := rfl
@[simp] theorem State.setFcr_env (d : Byte) : (s.setFcr d).env = s.env := rfl
@[simp] theorem State.setFcr_upcoming (d : Byte) : (s.setFcr d).upcoming = s.upcoming := rfl
@[simp] theorem State.setFcr_events (d : Byte) : (s.setFcr d).events = s.events := rfl
@[simp] theorem State.setFcr_params (d : Byte) : (s.setFcr d).params = s.params := rfl
@[simp] theorem State.setFcr_dlab (d : Byte) : (s.setFcr d).dlab = s.dlab := rfl
@[simp] theorem State.setFcr_window (d : Byte) : (s.setFcr d).window = s.window := rfl

/-! #### setLcr -/

@[simp] theorem State.setLcr_lcr (d : Byte) : (s.setLcr d).lcr = d := rfl
@[simp] theorem State.setLcr_dll (d : Byte) : (s.setLcr d).dll = s.dll := rfl
@[simp] theorem State.setLcr_dlm (d : Byte) : (s.setLcr d).dlm = s.dlm := rfl
@[simp] theorem State.setLcr_ier (d : Byte) : (s.setLcr d).ier = s.ier := rfl
@[simp] theorem State.setLcr_fcr (d : Byte) : (s.setLcr d).fcr = s.fcr := rfl
@[simp] theorem State.setLcr_base (d : Byte) : (s.setLcr d).base = s.base := rfl
@[simp] theorem State.setLcr_home (d : Byte) : (s.setLcr d).home = s.home := rfl
@[simp] theorem State.setLcr_init (d : Byte) : (s.setLcr d).init = s.init := rfl
@[simp] theorem State.setLcr_seq (d : Byte) : (s.setLcr d).seq = s.seq := rfl
@[simp] theorem State.setLcr_result (d : Byte) : (s.setLcr d).result = s.result := rfl
@[simp] theorem State.setLcr_readData (d : Byte) : (s.setLcr d).readData = s.readData := rfl
@[simp] theorem State.setLcr_busLog (d : Byte) : (s.setLcr d).busLog = s.busLog := rfl
@[simp] theorem State.setLcr_txLog (d : Byte) : (s.setLcr d).txLog = s.txLog := rfl
@[simp] theorem State.setLcr_env (d : Byte) : (s.setLcr d).env = s.env := rfl
@[simp] theorem State.setLcr_upcoming (d : Byte) : (s.setLcr d).upcoming = s.upcoming := rfl
@[simp] theorem State.setLcr_events (d : Byte) : (s.setLcr d).events = s.events := rfl
@[simp] theorem State.setLcr_params (d : Byte) : (s.setLcr d).params = s.params := rfl
@[simp] theorem State.setLcr_window (d : Byte) : (s.setLcr d).window = s.window := rfl

/-! #### goto -/

@[simp] theorem State.goto_lcr (b : Busy) (pc : Label) : (s.goto b pc).lcr = s.lcr := rfl
@[simp] theorem State.goto_dll (b : Busy) (pc : Label) : (s.goto b pc).dll = s.dll := rfl
@[simp] theorem State.goto_dlm (b : Busy) (pc : Label) : (s.goto b pc).dlm = s.dlm := rfl
@[simp] theorem State.goto_ier (b : Busy) (pc : Label) : (s.goto b pc).ier = s.ier := rfl
@[simp] theorem State.goto_fcr (b : Busy) (pc : Label) : (s.goto b pc).fcr = s.fcr := rfl
@[simp] theorem State.goto_base (b : Busy) (pc : Label) : (s.goto b pc).base = s.base := rfl
@[simp] theorem State.goto_home (b : Busy) (pc : Label) : (s.goto b pc).home = s.home := rfl
@[simp] theorem State.goto_init (b : Busy) (pc : Label) : (s.goto b pc).init = s.init := rfl
@[simp] theorem State.goto_seq (b : Busy) (pc : Label) : (s.goto b pc).seq = .busy { b with pc := pc } := rfl
@[simp] theorem State.goto_result (b : Busy) (pc : Label) : (s.goto b pc).result = s.result := rfl
@[simp] theorem State.goto_readData (b : Busy) (pc : Label) : (s.goto b pc).readData = s.readData := rfl
@[simp] theorem State.goto_busLog (b : Busy) (pc : Label) : (s.goto b pc).busLog = s.busLog := rfl
@[simp] theorem State.goto_txLog (b : Busy) (pc : Label) : (s.goto b pc).txLog = s.txLog := rfl
@[simp] theorem State.goto_env (b : Busy) (pc : Label) : (s.goto b pc).env = s.env := rfl
@[simp] theorem State.goto_upcoming (b : Busy) (pc : Label) : (s.goto b pc).upcoming = s.upcoming := rfl
@[simp] theorem State.goto_events (b : Busy) (pc : Label) : (s.goto b pc).events = s.events := rfl
@[simp] theorem State.goto_params (b : Busy) (pc : Label) : (s.goto b pc).params = s.params := rfl
@[simp] theorem State.goto_dlab (b : Busy) (pc : Label) : (s.goto b pc).dlab = s.dlab := rfl
@[simp] theorem State.goto_window (b : Busy) (pc : Label) : (s.goto b pc).window = s.window := rfl
@[simp] theorem State.goto_regs (b : Busy) (pc : Label) : (s.goto b pc).regs = s.regs := rfl

/-! #### done -/

@[simp] theorem State.done_lcr (r : CmdResult) : (s.done r).lcr = s.lcr := rfl
@[simp] theorem State.done_dll (r : CmdResult) : (s.done r).dll = s.dll := rfl
@[simp] theorem State.done_dlm (r : CmdResult) : (s.done r).dlm = s.dlm := rfl
@[simp] theorem State.done_ier (r : CmdResult) : (s.done r).ier = s.ier := rfl
@[simp] theorem State.done_fcr (r : CmdResult) : (s.done r).fcr = s.fcr := rfl
@[simp] theorem State.done_base (r : CmdResult) : (s.done r).base = s.base := rfl
@[simp] theorem State.done_home (r : CmdResult) : (s.done r).home = s.home := rfl
@[simp] theorem State.done_init (r : CmdResult) : (s.done r).init = s.init := rfl
@[simp] theorem State.done_seq (r : CmdResult) : (s.done r).seq = .idle := rfl
@[simp] theorem State.done_result (r : CmdResult) : (s.done r).result = r := rfl
@[simp] theorem State.done_readData (r : CmdResult) : (s.done r).readData = s.readData := rfl
@[simp] theorem State.done_busLog (r : CmdResult) : (s.done r).busLog = s.busLog := rfl
@[simp] theorem State.done_txLog (r : CmdResult) : (s.done r).txLog = s.txLog := rfl
@[simp] theorem State.done_env (r : CmdResult) : (s.done r).env = s.env := rfl
@[simp] theorem State.done_upcoming (r : CmdResult) : (s.done r).upcoming = s.upcoming := rfl
@[simp] theorem State.done_events (r : CmdResult) : (s.done r).events = s.events := rfl
@[simp] theorem State.done_params (r : CmdResult) : (s.done r).params = s.params := rfl
@[simp] theorem State.done_dlab (r : CmdResult) : (s.done r).dlab = s.dlab := rfl
@[simp] theorem State.done_window (r : CmdResult) : (s.done r).window = s.window := rfl
@[simp] theorem State.done_regs (r : CmdResult) : (s.done r).regs = s.regs := rfl

/-! #### start -/

@[simp] theorem State.start_lcr (c : Command) (pc : Label) : (s.start c pc).lcr = s.lcr := rfl
@[simp] theorem State.start_dll (c : Command) (pc : Label) : (s.start c pc).dll = s.dll := rfl
@[simp] theorem State.start_dlm (c : Command) (pc : Label) : (s.start c pc).dlm = s.dlm := rfl
@[simp] theorem State.start_ier (c : Command) (pc : Label) : (s.start c pc).ier = s.ier := rfl
@[simp] theorem State.start_fcr (c : Command) (pc : Label) : (s.start c pc).fcr = s.fcr := rfl
@[simp] theorem State.start_base (c : Command) (pc : Label) : (s.start c pc).base = s.base := rfl
@[simp] theorem State.start_home (c : Command) (pc : Label) : (s.start c pc).home = s.home := rfl
@[simp] theorem State.start_init (c : Command) (pc : Label) : (s.start c pc).init = s.init := rfl
@[simp] theorem State.start_seq (c : Command) (pc : Label) : (s.start c pc).seq = .busy ⟨c, pc, 0#8, 0#8, 0⟩ := rfl
@[simp] theorem State.start_result (c : Command) (pc : Label) : (s.start c pc).result = s.result := rfl
@[simp] theorem State.start_readData (c : Command) (pc : Label) : (s.start c pc).readData = s.readData := rfl
@[simp] theorem State.start_busLog (c : Command) (pc : Label) : (s.start c pc).busLog = s.busLog := rfl
@[simp] theorem State.start_txLog (c : Command) (pc : Label) : (s.start c pc).txLog = s.txLog := rfl
@[simp] theorem State.start_env (c : Command) (pc : Label) : (s.start c pc).env = s.env := rfl
@[simp] theorem State.start_upcoming (c : Command) (pc : Label) : (s.start c pc).upcoming = s.upcoming := rfl
@[simp] theorem State.start_events (c : Command) (pc : Label) : (s.start c pc).events = s.events := rfl
@[simp] theorem State.start_params (c : Command) (pc : Label) : (s.start c pc).params = s.params := rfl
@[simp] theorem State.start_dlab (c : Command) (pc : Label) : (s.start c pc).dlab = s.dlab := rfl
@[simp] theorem State.start_window (c : Command) (pc : Label) : (s.start c pc).window = s.window := rfl
@[simp] theorem State.start_regs (c : Command) (pc : Label) : (s.start c pc).regs = s.regs := rfl

/-! #### tick -/

@[simp] theorem State.tick_lcr : s.tick.lcr = s.lcr := rfl
@[simp] theorem State.tick_dll : s.tick.dll = s.dll := rfl
@[simp] theorem State.tick_dlm : s.tick.dlm = s.dlm := rfl
@[simp] theorem State.tick_ier : s.tick.ier = s.ier := rfl
@[simp] theorem State.tick_fcr : s.tick.fcr = s.fcr := rfl
@[simp] theorem State.tick_base : s.tick.base = s.base := rfl
@[simp] theorem State.tick_home : s.tick.home = s.home := rfl
@[simp] theorem State.tick_init : s.tick.init = s.init := rfl
@[simp] theorem State.tick_seq : s.tick.seq = s.seq := rfl
@[simp] theorem State.tick_result : s.tick.result = s.result := rfl
@[simp] theorem State.tick_readData : s.tick.readData = s.readData := rfl
@[simp] theorem State.tick_busLog : s.tick.busLog = s.busLog := rfl
@[simp] theorem State.tick_txLog : s.tick.txLog = s.txLog := rfl
@[simp] theorem State.tick_env : s.tick.env = { s.env with moment := s.env.moment + 1 } := rfl
@[simp] theorem State.tick_upcoming : s.tick.upcoming = s.upcoming := rfl
@[simp] theorem State.tick_events : s.tick.events = s.events := rfl
@[simp] theorem State.tick_params : s.tick.params = s.params := rfl
@[simp] theorem State.tick_dlab : s.tick.dlab = s.dlab := rfl
@[simp] theorem State.tick_window : s.tick.window = s.window := rfl
@[simp] theorem State.tick_regs : s.tick.regs = s.regs := rfl

/-! #### noDevice: a write does nothing, a read is a draw -/

@[simp] theorem State.noDevice_write : s.noDevice .write = s := rfl
@[simp] theorem State.noDevice_read_lcr : (s.noDevice .read).lcr = s.lcr := rfl
@[simp] theorem State.noDevice_read_dll : (s.noDevice .read).dll = s.dll := rfl
@[simp] theorem State.noDevice_read_dlm : (s.noDevice .read).dlm = s.dlm := rfl
@[simp] theorem State.noDevice_read_ier : (s.noDevice .read).ier = s.ier := rfl
@[simp] theorem State.noDevice_read_fcr : (s.noDevice .read).fcr = s.fcr := rfl
@[simp] theorem State.noDevice_read_base : (s.noDevice .read).base = s.base := rfl
@[simp] theorem State.noDevice_read_home : (s.noDevice .read).home = s.home := rfl
@[simp] theorem State.noDevice_read_init : (s.noDevice .read).init = s.init := rfl
@[simp] theorem State.noDevice_read_seq : (s.noDevice .read).seq = s.seq := rfl
@[simp] theorem State.noDevice_read_result : (s.noDevice .read).result = s.result := rfl
@[simp] theorem State.noDevice_read_busLog : (s.noDevice .read).busLog = s.busLog := rfl
@[simp] theorem State.noDevice_read_txLog : (s.noDevice .read).txLog = s.txLog := rfl
@[simp] theorem State.noDevice_read_events : (s.noDevice .read).events = s.events := rfl
@[simp] theorem State.noDevice_read_params : (s.noDevice .read).params = s.params := rfl
@[simp] theorem State.noDevice_read_dlab : (s.noDevice .read).dlab = s.dlab := rfl
@[simp] theorem State.noDevice_read_window : (s.noDevice .read).window = s.window := rfl
@[simp] theorem State.noDevice_read_regs : (s.noDevice .read).regs = s.regs := rfl
@[simp] theorem State.noDevice_read_readData : (s.noDevice .read).readData = s.upcoming 0 := rfl
@[simp] theorem State.noDevice_read_env :
    (s.noDevice .read).env = { s.env with answers := s.env.answers.drop 1, drawn := s.env.drawn + 1 } := rfl

end

end Sys2Proof.Machine
end

