-- ==== Sys2Proof/Laws/Access.lean ====
section
/-! SUPPORT. The spec lemmas of one bus access: what each decoded form can do, what the access procedure
does for the Port whose device stands at its base, and what any access can do. -/

namespace Sys2Proof.Machine

/-! ### Outcomes -/

@[simp] theorem Result.andThen_next (s : State) (f : State → Result) :
    Result.andThen (.next s) f = f s := rfl

@[simp] theorem Result.andThen_fault (e : Fault) (f : State → Result) :
    Result.andThen (.fault e) f = .fault e := rfl

@[simp] theorem Result.andThen_refused (e : Refusal) (f : State → Result) :
    Result.andThen (.refused e) f = .refused e := rfl

/-- A sequence of two moves reaches a next state only through one. -/
theorem Result.andThen_eq_next {o : Result} {f : State → Result} {t : State} :
    Result.andThen o f = .next t ↔ ∃ u, o = .next u ∧ f u = .next t := by
  cases o <;> simp [Result.andThen]

/-! ### Draws -/

@[simp] theorem State.upcoming_afterDraws (s : State) (n k : Nat) :
    (s.afterDraws n).upcoming k = s.upcoming (n + k) := by
  simp [State.upcoming, Nat.add_assoc]

@[simp] theorem State.afterDraws_zero (s : State) : s.afterDraws 0 = s := by
  simp [State.afterDraws]

@[simp] theorem State.afterDraws_afterDraws (s : State) (m n : Nat) :
    (s.afterDraws m).afterDraws n = s.afterDraws (m + n) := by
  simp [State.afterDraws, Nat.add_assoc]

/-! ### Selecting -/

/-- Every selector decodes to an access form of its own direction and offset, with the byte of a
write. -/
theorem decodeSel_busForm (dir : Dir) (off : Offset) (dlab : Bool) (d : Byte) :
    ∃ latch x, (decodeSel (selector dir off dlab) d).busForm = some ⟨dir, off, latch, x⟩ ∧
      (dir = .write → x = d) := by
  have hoff : off = 0#3 ∨ off = 1#3 ∨ off = 2#3 ∨ off = 3#3 ∨ off = 4#3 ∨ off = 5#3 ∨ off = 6#3 ∨
      off = 7#3 := by revert off; decide
  rcases hoff with rfl | rfl | rfl | rfl | rfl | rfl | rfl | rfl <;> cases dir <;> cases dlab <;>
    exact ⟨_, _, rfl, by simp⟩

/-! ### The forms -/

/-- What an access leaves alone: the Port, the sequencer, the agents' queue, the parameters. -/
structure Kept (s t : State) : Prop where
  base   : t.base = s.base
  home   : t.home = s.home
  init   : t.init = s.init
  seq    : t.seq = s.seq
  result : t.result = s.result
  events : t.events = s.events
  params : t.params = s.params
  moment : t.env.moment = s.env.moment

theorem Kept.refl (s : State) : Kept s s := ⟨rfl, rfl, rfl, rfl, rfl, rfl, rfl, rfl⟩

theorem Kept.window {s t : State} (h : Kept s t) : t.window = s.window := by
  simp [State.window, h.params, h.home]

/-- An access that logs the entry `e`: the registers and TXLOG change as the entry says, everything else
but the returned byte and the draw stays. -/
structure Entered (s t : State) (e : BusEntry) : Prop where
  kept : Kept s t
  log  : t.busLog = s.busLog ++ [e]
  regs : t.regs = s.regs.after e
  tx   : t.txLog = s.txLog ++ [e].filterMap BusEntry.sent

theorem entered_logRead (s : State) (k : Offset) (b : Byte) :
    Entered s (s.logRead k b) ⟨.read, k, s.dlab, b⟩ :=
  ⟨by constructor <;> rfl, rfl, rfl, by simp [BusEntry.sent]⟩

theorem entered_readDrawn (s : State) (k : Offset) :
    Entered s (s.readDrawn k) ⟨.read, k, s.dlab, s.upcoming 0⟩ :=
  ⟨by constructor <;> rfl, rfl, rfl, by simp [BusEntry.sent, State.readDrawn]⟩

theorem entered_readBack (s : State) (k : Offset) (stored : Byte) :
    ∃ x, Entered s (s.readBack k stored) ⟨.read, k, s.dlab, x⟩ := by
  unfold State.readBack
  split
  · exact ⟨_, entered_readDrawn s k⟩
  · exact ⟨_, entered_logRead s k stored⟩

/-- The write at offset 0, in either mode. -/
theorem entered_write_data (s : State) (d : Byte) :
    Entered s (if s.dlab then (s.logWrite offData d).setDll d else (s.logWrite offData d).transmit d)
      ⟨.write, 0#3, s.dlab, d⟩ := by
  cases h : s.lcr[7]
  · have hd : s.dlab = false := h
    simp only [hd]
    exact ⟨by constructor <;> rfl, by simp [offData, hd], by simp [Regs.after, State.regs, h], by simp [BusEntry.sent]⟩
  · have hd : s.dlab = true := h
    simp only [hd]
    exact ⟨by constructor <;> rfl, by simp [offData, hd], by simp [Regs.after, State.regs, h], by simp [BusEntry.sent]⟩

/-- The write at offset 1, in either mode. -/
theorem entered_write_interrupt (s : State) (d : Byte) :
    Entered s (if s.dlab then (s.logWrite offInterrupt d).setDlm d else (s.logWrite offInterrupt d).setIer d)
      ⟨.write, 1#3, s.dlab, d⟩ := by
  cases h : s.lcr[7]
  · have hd : s.dlab = false := h
    simp only [hd]
    exact ⟨by constructor <;> rfl, by simp [offInterrupt, hd], by simp [Regs.after, State.regs, h], by simp [BusEntry.sent]⟩
  · have hd : s.dlab = true := h
    simp only [hd]
    exact ⟨by constructor <;> rfl, by simp [offInterrupt, hd], by simp [Regs.after, State.regs, h], by simp [BusEntry.sent]⟩

/-- A write that stores nothing: offsets 4 to 7. -/
theorem entered_write_unstored (s : State) (k : Offset) (d : Byte) (hk : 4 ≤ k.toNat) :
    Entered s (s.logWrite k d) ⟨.write, k, s.dlab, d⟩ := by
  have h : ¬ k = 0#3 ∧ ¬ k = 1#3 ∧ ¬ k = 2#3 ∧ ¬ k = 3#3 := by revert k; decide
  exact ⟨by constructor <;> rfl, rfl, by simp [Regs.after, h], by simp [BusEntry.sent, h]⟩

/-- An access form always completes, with one log entry of its direction and offset and, for a write, of
its byte. -/
theorem exec_bus {i : Instr} {f : BusForm} (h : i.busForm = some f) (s : State) :
    ∃ t x, exec i s = .next t ∧ Entered s t ⟨f.dir, f.off, s.dlab, x⟩ ∧ (f.dir = .write → x = f.data) := by
  have drawn (k : Offset) : ∃ t x, (.next (s.readDrawn k) : Result) = .next t ∧
      Entered s t ⟨.read, k, s.dlab, x⟩ ∧ (Dir.read = .write → x = 0#8) :=
    ⟨_, _, rfl, entered_readDrawn s k, by simp⟩
  have back (k : Offset) (b : Byte) : ∃ t x, (.next (s.readBack k b) : Result) = .next t ∧
      Entered s t ⟨.read, k, s.dlab, x⟩ ∧ (Dir.read = .write → x = 0#8) :=
    have ⟨x, hx⟩ := entered_readBack s k b
    ⟨_, x, rfl, hx, by simp⟩
  cases i <;> simp only [Instr.busForm, Option.some.injEq, reduceCtorEq] at h <;> subst h
  case rbrRd => simp only [exec, execRbrRd]; split; exacts [back _ _, drawn _]
  case dllRd => simp only [exec, execDllRd]; split; exacts [back _ _, drawn _]
  case ierRd => simp only [exec, execIerRd]; split; exacts [back _ _, back _ _]
  case dlmRd => simp only [exec, execDlmRd]; split; exacts [back _ _, back _ _]
  case iirRd => exact drawn _
  case mcrRd => exact drawn _
  case lsrRd => exact drawn _
  case msrRd => exact drawn _
  case scrRd => exact drawn _
  case lcrRd => exact ⟨_, _, rfl, entered_logRead s 3#3 s.lcr, by simp⟩
  case thrWr d => exact ⟨_, _, rfl, entered_write_data s d, by simp⟩
  case dllWr d => exact ⟨_, _, rfl, entered_write_data s d, by simp⟩
  case ierWr d => exact ⟨_, _, rfl, entered_write_interrupt s d, by simp⟩
  case dlmWr d => exact ⟨_, _, rfl, entered_write_interrupt s d, by simp⟩
  case fcrWr d => exact ⟨_, _, rfl, ⟨by constructor <;> rfl, rfl, by simp [Regs.after, State.regs], by simp [BusEntry.sent]⟩, by simp⟩
  case lcrWr d => exact ⟨_, _, rfl, ⟨by constructor <;> rfl, rfl, by simp [Regs.after, State.regs], by simp [BusEntry.sent]⟩, by simp⟩
  case mcrWr d => exact ⟨_, _, rfl, entered_write_unstored s 4#3 d (by decide), by simp⟩
  case lsrWr d => exact ⟨_, _, rfl, entered_write_unstored s 5#3 d (by decide), by simp⟩
  case msrWr d => exact ⟨_, _, rfl, entered_write_unstored s 6#3 d (by decide), by simp⟩
  case scrWr d => exact ⟨_, _, rfl, entered_write_unstored s 7#3 d (by decide), by simp⟩

/-! ### The access procedure (R140) -/

/-- What any access can do: nothing logged and nothing stored, or one entry. -/
structure OneAccess (s t : State) : Prop where
  kept : Kept s t
  log  : (t.busLog = s.busLog ∧ t.regs = s.regs ∧ t.txLog = s.txLog) ∨
         (s.window ≠ none ∧ ∃ e : BusEntry, e.dlab = s.dlab ∧ Entered s t e)

theorem noDevice_oneAccess (s : State) (dir : Dir) : OneAccess s (s.noDevice dir) := by
  cases dir
  · exact ⟨by constructor <;> rfl, .inl ⟨rfl, rfl, rfl⟩⟩
  · exact ⟨by constructor <;> rfl, .inl ⟨rfl, rfl, rfl⟩⟩

/-- An access always completes. -/
theorem access_next (dir : Dir) (addr : Nat) (d : Byte) (s : State) :
    ∃ t, access dir addr d s = .next t ∧ OneAccess s t := by
  unfold access
  split
  · exact ⟨_, rfl, noDevice_oneAccess s dir⟩
  · next off hoff =>
    obtain ⟨latch, y, hy, -⟩ := decodeSel_busForm dir off s.dlab d
    obtain ⟨t, x, ht, he, -⟩ := exec_bus hy s
    refine ⟨t, ht, he.kept, .inr ⟨?_, _, rfl, he⟩⟩
    intro hw
    simp [State.offsetOf, hw] at hoff

/-- At a Port whose device stands at its base, the address of offset `k` selects offset `k` (R61, R62). -/
theorem offsetOf_portAddr {s : State} {b : Port} (h : s.window = some b) (k : Offset) :
    s.offsetOf (portAddr b k) = some k := by
  have hk : k.toNat < 8 := k.isLt
  have hin : b.toNat ≤ portAddr b k ∧ portAddr b k ≤ b.toNat + 7 := by unfold portAddr; omega
  simp only [State.offsetOf, h, if_pos hin]
  simp [portAddr]

/-- The access of a micro-step at a Port whose device stands at its base is the form that offset and
DLAB select. -/
theorem portAccess_atPort {s : State} {b : Port} (h : s.DeviceAtPort b) (dir : Dir) (k : Offset)
    (d : Byte) (f : State → Result) :
    portAccess dir k d s f = Result.andThen (exec (decodeSel (selector dir k s.dlab) d) s) f := by
  simp [portAccess, h.1, access, offsetOf_portAddr h.2]

section
variable {s : State} {b : Port} (h : s.DeviceAtPort b) (d : Byte) (f : State → Result)
include h

/-- S1 at the device. -/
theorem portAccess_read_lineControl :
    portAccess .read offLineControl d s f = f (s.logRead offLineControl s.lcr) := by
  rw [portAccess_atPort h]; cases s.dlab <;> rfl

/-- S2, S5, L1 at the device. -/
theorem portAccess_write_lineControl :
    portAccess .write offLineControl d s f = f ((s.logWrite offLineControl d).setLcr d) := by
  rw [portAccess_atPort h]; cases s.dlab <;> rfl

/-- P1, T1, W1 at the device. -/
theorem portAccess_read_lineStatus :
    portAccess .read offLineStatus d s f = f (s.readDrawn offLineStatus) := by
  rw [portAccess_atPort h]; cases s.dlab <;> rfl

/-- F1 at the device. -/
theorem portAccess_write_fifo :
    portAccess .write offIdentFifo d s f = f ((s.logWrite offIdentFifo d).setFcr d) := by
  rw [portAccess_atPort h]; cases s.dlab <;> rfl

/-- S3, W2 at the device, the latch open. -/
theorem portAccess_write_data_open (hd : s.dlab = true) :
    portAccess .write offData d s f = f ((s.logWrite offData d).setDll d) := by
  rw [portAccess_atPort h, hd]
  simp [decodeSel, selector, offData, exec, execDllWr, hd]

/-- S3, W2 at the device, the latch closed. -/
theorem portAccess_write_data_closed (hd : s.dlab = false) :
    portAccess .write offData d s f = f ((s.logWrite offData d).transmit d) := by
  rw [portAccess_atPort h, hd]
  simp [decodeSel, selector, offData, exec, execThrWr, hd]

/-- M1, S4 at the device, the latch open. -/
theorem portAccess_write_interrupt_open (hd : s.dlab = true) :
    portAccess .write offInterrupt d s f = f ((s.logWrite offInterrupt d).setDlm d) := by
  rw [portAccess_atPort h, hd]
  simp [decodeSel, selector, offInterrupt, exec, execDlmWr, hd]

/-- M1, S4 at the device, the latch closed. -/
theorem portAccess_write_interrupt_closed (hd : s.dlab = false) :
    portAccess .write offInterrupt d s f = f ((s.logWrite offInterrupt d).setIer d) := by
  rw [portAccess_atPort h, hd]
  simp [decodeSel, selector, offInterrupt, exec, execIerWr, hd]

end

/-- The access of a micro-step at a Port with no device there (R141). -/
theorem portAccess_noDevice {s : State} {b : Port} (h : s.NoDeviceAtPort b) (dir : Dir) (k : Offset)
    (d : Byte) (f : State → Result) : portAccess dir k d s f = f (s.noDevice dir) := by
  simp [portAccess, h.1, access, h.2 k]

/-- A Port has no device where there is none at all. -/
theorem noDeviceAtPort_of_window {s : State} {b : Port} (hb : s.base = some b) (hw : s.window = none) :
    s.NoDeviceAtPort b := ⟨hb, fun k => by simp [State.offsetOf, hw]⟩

/-- Whether no device stands at the Port depends on the parameters and the two bases alone. -/
theorem State.NoDeviceAtPort.congr {s t : State} {b : Port} (h : s.NoDeviceAtPort b) (hb : t.base = s.base)
    (hh : t.home = s.home) (hp : t.params = s.params) : t.NoDeviceAtPort b :=
  ⟨hb ▸ h.1, fun k => by
    have := h.2 k
    simpa [State.offsetOf, State.window, hh, hp] using this⟩

/-- The access of a micro-step completes; what follows is the step's own. -/
theorem portAccess_cases {s : State} {b : Port} (h : s.base = some b) (dir : Dir) (k : Offset) (d : Byte)
    (f : State → Result) : ∃ u, OneAccess s u ∧ portAccess dir k d s f = f u := by
  obtain ⟨u, hu, ho⟩ := access_next dir (portAddr b k) d s
  exact ⟨u, ho, by simp [portAccess, h, hu]⟩

end Sys2Proof.Machine
end

