-- ==== Sys2Proof/Laws/Decode.lean ====
section
/-! SUPPORT. Small lemmas about the image and the selector. -/

namespace Sys2Proof

@[simp] theorem le16_byteOf (v : BitVec 16) : le16 (byteOf v 0) (byteOf v 1) = v := by
  apply BitVec.eq_of_getLsbD_eq
  intro i hi
  simp only [le16, byteOf, BitVec.getLsbD_append, BitVec.getLsbD_extractLsb']
  by_cases h : i < 8
  · simp [h]
  · simp [h, show 8 + (i - 8) = i by omega, show i - 8 < 8 by omega]

@[simp] theorem le32_byteOf (v : BitVec 32) :
    le32 (byteOf v 0) (byteOf v 1) (byteOf v 2) (byteOf v 3) = v := by
  apply BitVec.eq_of_getLsbD_eq
  intro i hi
  simp only [le32, byteOf, BitVec.getLsbD_append, BitVec.getLsbD_extractLsb']
  by_cases h8 : i < 8
  · simp [h8]
  by_cases h16 : i - 8 < 8
  · simp [h8, h16, show 8 + (i - 8) = i by omega]
  by_cases h24 : i - 8 - 8 < 8
  · simp [h8, h16, h24, show 16 + (i - 8 - 8) = i by omega]
  · simp [h8, h16, h24, show 24 + (i - 8 - 8 - 8) = i by omega, show i - 8 - 8 - 8 < 8 by omega]

/-- The characters of an encoded sequence are read back. -/
@[simp] theorem decodeChars_encodeChars (cs : List CharCode) :
    decodeChars (encodeChars cs) = .ok cs := by
  induction cs with
  | nil => rfl
  | cons c cs ih => simp [encodeChars, decodeChars, ih, Except.map]

/-- The head byte of a bus access carries its selector. -/
@[simp] theorem busHead_sel (sel : Selector) : (busHead sel).extractLsb' 0 5 = sel := by
  revert sel; decide

@[simp] theorem busHead_format (sel : Selector) : (busHead sel).extractLsb' 5 3 = 0b001#3 := by
  revert sel; decide

/-- The head byte of a command carries its code. -/
@[simp] theorem cmdHead_op (op : BitVec 4) : (cmdHead op).extractLsb' 0 4 = op := by
  revert op; decide

@[simp] theorem cmdHead_format (op : BitVec 4) : (cmdHead op).extractLsb' 4 4 = 0b0100#4 := by
  revert op; decide

@[simp] theorem cmdHead_not_bus (op : BitVec 4) : ¬ (cmdHead op).extractLsb' 5 3 = 0b001#3 := by
  revert op; decide

/-- What an image with a bus head decodes to. -/
theorem decode_busHead (sel : Selector) (bs : List Byte) :
    decode (busHead sel :: bs) = decodeBus sel bs := by
  simp [decode]

/-- What an image with a command head decodes to. -/
theorem decode_cmdHead (op : BitVec 4) (bs : List Byte) :
    decode (cmdHead op :: bs) = decodeCommand op bs := by
  simp [decode, cmdHead_not_bus]

end Sys2Proof
end

