-- ==== Sys2Proof/Laws/PerInstr.lean ====
section
/-! SUPPORT. A statement about every instruction, made per instruction: the head byte of its image names
its format, so no image is read in the other format. -/

namespace Sys2Proof.Laws.HeadFormat

/-- The image is a head byte and operands; the head is a bus head exactly for a bus access. -/
def Statement (i : Instr) : Prop :=
  ∃ head operands, encode i = head :: operands ∧
    (i.isCommand = false ↔ head.extractLsb' 5 3 = 0b001#3)

theorem rbrRd : Statement .rbrRd := ⟨_, _, rfl, by decide⟩
theorem thrWr (d : Byte) : Statement (.thrWr d) := ⟨_, _, rfl, by simp [Instr.isCommand, Instr.busForm]⟩
theorem dllRd : Statement .dllRd := ⟨_, _, rfl, by decide⟩
theorem dllWr (d : Byte) : Statement (.dllWr d) := ⟨_, _, rfl, by simp [Instr.isCommand, Instr.busForm]⟩
theorem ierRd : Statement .ierRd := ⟨_, _, rfl, by decide⟩
theorem ierWr (d : Byte) : Statement (.ierWr d) := ⟨_, _, rfl, by simp [Instr.isCommand, Instr.busForm]⟩
theorem dlmRd : Statement .dlmRd := ⟨_, _, rfl, by decide⟩
theorem dlmWr (d : Byte) : Statement (.dlmWr d) := ⟨_, _, rfl, by simp [Instr.isCommand, Instr.busForm]⟩
theorem iirRd : Statement .iirRd := ⟨_, _, rfl, by decide⟩
theorem fcrWr (d : Byte) : Statement (.fcrWr d) := ⟨_, _, rfl, by simp [Instr.isCommand, Instr.busForm]⟩
theorem lcrRd : Statement .lcrRd := ⟨_, _, rfl, by decide⟩
theorem lcrWr (d : Byte) : Statement (.lcrWr d) := ⟨_, _, rfl, by simp [Instr.isCommand, Instr.busForm]⟩
theorem mcrRd : Statement .mcrRd := ⟨_, _, rfl, by decide⟩
theorem mcrWr (d : Byte) : Statement (.mcrWr d) := ⟨_, _, rfl, by simp [Instr.isCommand, Instr.busForm]⟩
theorem lsrRd : Statement .lsrRd := ⟨_, _, rfl, by decide⟩
theorem lsrWr (d : Byte) : Statement (.lsrWr d) := ⟨_, _, rfl, by simp [Instr.isCommand, Instr.busForm]⟩
theorem msrRd : Statement .msrRd := ⟨_, _, rfl, by decide⟩
theorem msrWr (d : Byte) : Statement (.msrWr d) := ⟨_, _, rfl, by simp [Instr.isCommand, Instr.busForm]⟩
theorem scrRd : Statement .scrRd := ⟨_, _, rfl, by decide⟩
theorem scrWr (d : Byte) : Statement (.scrWr d) := ⟨_, _, rfl, by simp [Instr.isCommand, Instr.busForm]⟩
theorem construct (b : Port) : Statement (.construct b) := ⟨_, _, rfl, by simp [Instr.isCommand, Instr.busForm]⟩
theorem initializePort : Statement .initializePort := ⟨_, _, rfl, by decide⟩
theorem setFifoOptions (o : Byte) : Statement (.setFifoOptions o) := ⟨_, _, rfl, by simp [Instr.isCommand, Instr.busForm]⟩
theorem setInterruptMask (m : Byte) : Statement (.setInterruptMask m) := ⟨_, _, rfl, by simp [Instr.isCommand, Instr.busForm]⟩
theorem setDivisorSpeed (c : Divisor) : Statement (.setDivisorSpeed c) := ⟨_, _, rfl, by simp [Instr.isCommand, Instr.busForm]⟩
theorem setLineOptions (d : Byte) (st : Bool) (p : Byte) : Statement (.setLineOptions d st p) := ⟨_, _, rfl, by simp [Instr.isCommand, Instr.busForm]⟩
theorem packetReceived : Statement .packetReceived := ⟨_, _, rfl, by decide⟩
theorem transmitEmpty : Statement .transmitEmpty := ⟨_, _, rfl, by decide⟩
theorem writeChar (c : CharCode) : Statement (.writeChar c) := ⟨_, _, rfl, by simp [Instr.isCommand, Instr.busForm]⟩
theorem writeStr (s : List CharCode) : Statement (.writeStr s) := ⟨_, _, rfl, by simp [Instr.isCommand, Instr.busForm]⟩

end Sys2Proof.Laws.HeadFormat
end

