-- ==== Sys2Proof/Laws/Steps.lean ====
section
/-! SUPPORT. What a micro-step, an issued command and a step can do, each said once. -/

namespace Sys2Proof.Machine

/-! ### Micro-steps -/

/-- How a micro-step ends after its access: at another label of the same command, or the command is done;
INIT is set only at F1 of initialize. -/
inductive StepEnd (b : Busy) (u t : State) : Prop where
  | goto (b' : Busy) (pc : Label) (ht : t = u.goto b' pc) (hcmd : b'.cmd = b.cmd)
      (hpc : b.cmd.labels.contains pc = true) (hi : ({ b' with pc := pc } : Busy).indexOk = true)
  | done (r : CmdResult) (ht : t = u.done r) (hr : ∀ p, r ≠ .port p)
  | init (hcmd : b.cmd = .initializePort) (hpc : b.pc = .F1)
      (ht : t = ({ u with init := true } : State).done .nothing)

/-- From a state of a Port that exists, a micro-step at a label of its command completes: at most one
access, then one of the ends. -/
theorem microStep_next {b : Busy} {s : State} {p : Port} (hbase : s.base = some p)
    (hl : b.cmd.labels.contains b.pc = true) (hi : b.indexOk = true) :
    ∃ u t, microStep b s = .next t ∧ (u = s ∨ OneAccess s u) ∧ StepEnd b u t := by
  have acc (dir : Dir) (k : Offset) (d : Byte) (f : State → Result)
      (hf : ∀ u, ∃ t, f u = .next t ∧ StepEnd b u t) :
      ∃ u t, portAccess dir k d s f = .next t ∧ (u = s ∨ OneAccess s u) ∧ StepEnd b u t := by
    obtain ⟨u, hu, he⟩ := portAccess_cases hbase dir k d f
    obtain ⟨t, ht, hend⟩ := hf u
    exact ⟨u, t, by rw [he, ht], .inr hu, hend⟩
  obtain ⟨cmd, pc, v, smp, i⟩ := b
  cases cmd <;> cases pc <;> simp [Command.labels] at hl <;> (try simp [Busy.indexOk] at hi) <;>
    simp only [microStep, stepM1, stepS1, stepS2, stepS3, stepS4, stepS5, stepL1, stepF1, stepP1, stepT1,
      stepW1, stepW2, stepX0, Command.divisor?, Busy.char?]
  case writeStr.X0 cs =>
    split
    · exact ⟨s, _, rfl, .inl rfl, .done _ rfl (by simp)⟩
    · exact ⟨s, _, rfl, .inl rfl, .goto _ .W1 rfl rfl (by simp [Command.labels])
        (by simp [Busy.indexOk]; omega)⟩
  case writeStr.W1 cs =>
    simp only [List.getElem?_eq_getElem hi]
    refine acc _ _ _ _ fun u => ⟨_, rfl, .goto _ _ rfl rfl ?_ ?_⟩ <;> split <;>
      simp [Command.labels, Busy.indexOk, hi]
  case writeStr.W2 cs =>
    simp only [List.getElem?_eq_getElem hi]
    exact acc _ _ _ _ fun u => ⟨_, rfl, .goto _ .X0 rfl rfl (by simp [Command.labels])
      (by simp [Busy.indexOk]; omega)⟩
  case writeChar.W1 c =>
    refine acc _ _ _ _ fun u => ⟨_, rfl, .goto _ _ rfl rfl ?_ rfl⟩
    split <;> simp [Command.labels]
  case initializePort.F1 => exact acc _ _ _ _ fun u => ⟨_, rfl, .init rfl rfl rfl⟩
  all_goals first
    | exact acc _ _ _ _ fun u => ⟨_, rfl, .done _ rfl (by simp)⟩
    | exact acc _ _ _ _ fun u => ⟨_, rfl, .goto _ _ rfl rfl (by simp [Command.labels]) rfl⟩

/-- How any micro-step that reaches a next state ends, from any state at all. -/
inductive StepKind (b : Busy) (u t : State) : Prop where
  | goto (b' : Busy) (pc : Label) (ht : t = u.goto b' pc) (hcmd : b'.cmd = b.cmd)
  | done (r : CmdResult) (ht : t = u.done r) (hr : ∀ p, r ≠ .port p)
  | init (hcmd : b.cmd = .initializePort) (hpc : b.pc = .F1)
      (ht : t = ({ u with init := true } : State).done .nothing)

theorem portAccess_eq_next {dir : Dir} {k : Offset} {d : Byte} {s t : State} {f : State → Result}
    (h : portAccess dir k d s f = .next t) : ∃ u, OneAccess s u ∧ f u = .next t := by
  cases hb : s.base with
  | none => simp [portAccess, hb] at h
  | some p =>
    obtain ⟨u, hu, he⟩ := portAccess_cases hb dir k d f
    exact ⟨u, hu, he ▸ h⟩

theorem endPart_kind {b : Busy} {pc : Label} {u t : State} (h : endPart b pc u = .next t) :
    StepKind b u t := by
  unfold endPart at h
  split at h
  · exact .goto b pc (Host.Outcome.next.inj h).symm rfl
  · exact .done _ (Host.Outcome.next.inj h).symm (by simp)

/-- A micro-step that reaches a next state makes at most one access and ends in one of the ways. -/
theorem microStep_cases {b : Busy} {s t : State} (h : microStep b s = .next t) :
    ∃ u, (u = s ∨ OneAccess s u) ∧ StepKind b u t := by
  have acc {dir : Dir} {k : Offset} {d : Byte} {f : State → Result}
      (hp : portAccess dir k d s f = .next t) (hf : ∀ u, f u = .next t → StepKind b u t) :
      ∃ u, (u = s ∨ OneAccess s u) ∧ StepKind b u t := by
    obtain ⟨u, hu, hfu⟩ := portAccess_eq_next hp
    exact ⟨u, .inr hu, hf u hfu⟩
  have goes {b' : Busy} {pc : Label} (u : State) (hu : (.next (u.goto b' pc) : Result) = .next t)
      (hcmd : b'.cmd = b.cmd) : StepKind b u t :=
    .goto b' pc (Host.Outcome.next.inj hu).symm hcmd
  have ends {r : CmdResult} (hr : ∀ p, r ≠ .port p) (u : State)
      (hu : (.next (u.done r) : Result) = .next t) : StepKind b u t :=
    .done r (Host.Outcome.next.inj hu).symm hr
  unfold microStep at h
  split at h
  case h_1 => unfold stepM1 at h; split at h <;> first | simp at h | exact acc h fun _ => endPart_kind
  case h_2 => unfold stepS1 at h; split at h <;> first | simp at h | exact acc h fun u hu => goes u hu rfl
  case h_3 => unfold stepS2 at h; split at h <;> first | simp at h | exact acc h fun u hu => goes u hu rfl
  case h_4 => unfold stepS3 at h; split at h <;> first | simp at h | exact acc h fun u hu => goes u hu rfl
  case h_5 => unfold stepS4 at h; split at h <;> first | simp at h | exact acc h fun u hu => goes u hu rfl
  case h_6 => unfold stepS5 at h; split at h <;> first | simp at h | exact acc h fun _ => endPart_kind
  case h_7 => unfold stepL1 at h; split at h <;> first | simp at h | exact acc h fun _ => endPart_kind
  case h_8 hpc =>
    unfold stepF1 at h
    split at h
    · next hc => exact acc h fun u hu => .init hc hpc (Host.Outcome.next.inj hu).symm
    · exact acc h fun u => ends (by simp) u
    · simp at h
  case h_9 => unfold stepP1 at h; split at h <;> first | simp at h | exact acc h fun u => ends (by simp) u
  case h_10 => unfold stepT1 at h; split at h <;> first | simp at h | exact acc h fun u => ends (by simp) u
  case h_11 => unfold stepW1 at h; split at h <;> first | simp at h | exact acc h fun u hu => goes u hu rfl
  case h_12 =>
    unfold stepW2 at h
    split at h
    · exact acc h fun u => ends (by simp) u
    · split at h <;> first | simp at h | exact acc h fun u hu => goes u hu rfl
    · simp at h
  case h_13 =>
    unfold stepX0 at h
    split at h
    · split at h
      · exact ⟨s, .inl rfl, ends (by simp) s h⟩
      · exact ⟨s, .inl rfl, goes s h rfl⟩
    · simp at h

/-! ### Turns of the sequencer -/

theorem seqMove_busy {s : State} {b : Busy} (h : s.seq = .busy b) : seqMove s = microStep b s := by
  simp [seqMove, h]

@[simp] theorem seqRun_zero (s : State) : seqRun 0 s = .next s := rfl

theorem seqRun_succ (n : Nat) (s : State) : seqRun (n + 1) s = Result.andThen (seqMove s) (seqRun n) := rfl

/-- Turns add up. -/
theorem seqRun_add (m n : Nat) (s : State) :
    seqRun (m + n) s = Result.andThen (seqRun m s) (seqRun n) := by
  induction m generalizing s with
  | zero => simp
  | succ m ih =>
    rw [Nat.succ_add, seqRun_succ, seqRun_succ]
    cases h : seqMove s <;> simp [ih]

/-! ### Issued commands -/

/-- What a command can do when it is issued: construct ends at once, any other command is taken up at a
first step of its own. -/
inductive Accepted (s t : State) : Prop where
  | construct (b : Port) (hb : baseInRange b = true)
      (ht : t = { s with base := some b, home := s.home.or (some b), result := .port b })
  | start (cmd : Command) (pc : Label) (p : Port) (hp : s.base = some p)
      (ht : t = s.start cmd pc) (hpc : cmd.labels.contains pc = true)
      (hi : ({ cmd := cmd, pc := pc, v := 0#8, s := 0#8, i := 0 } : Busy).indexOk = true)

theorem onIdlePort_eq_next {s t : State} {k : Result} :
    s.onIdlePort k = .next t ↔ s.seq = .idle ∧ (∃ p, s.base = some p) ∧ k = .next t := by
  unfold State.onIdlePort
  cases hs : s.seq <;> cases hb : s.base <;> simp

/-- A command is accepted in Idle alone. -/
theorem exec_command_next {i : Instr} {s t : State} (hi : i.isCommand = true) (h : exec i s = .next t) :
    s.seq = .idle ∧ Accepted s t := by
  cases i <;> simp [Instr.isCommand, Instr.busForm] at hi <;> simp only [exec] at h
  case construct b =>
    unfold execConstruct at h
    split at h
    · simp at h
    · next hs =>
      split at h
      · next hb =>
        refine ⟨hs, .construct b hb ?_⟩
        rw [← Host.Outcome.next.inj h]
        simp [State.done, hs]
      · simp at h
  case setDivisorSpeed c =>
    obtain ⟨hs, ⟨p, hp⟩, hk⟩ := onIdlePort_eq_next.1 h
    split at hk <;> simp at hk
    exact ⟨hs, .start _ _ p hp hk.symm (by simp [Command.labels]) rfl⟩
  case setLineOptions d st q =>
    obtain ⟨hs, ⟨p, hp⟩, hk⟩ := onIdlePort_eq_next.1 h
    split at hk <;> simp at hk
    exact ⟨hs, .start _ _ p hp hk.symm (by simp [Command.labels]) rfl⟩
  all_goals
    obtain ⟨hs, ⟨p, hp⟩, hk⟩ := onIdlePort_eq_next.1 h
    exact ⟨hs, .start _ _ p hp (Host.Outcome.next.inj hk).symm (by simp [Command.labels]) (by simp [Busy.indexOk])⟩

/-! ### Steps -/

/-- The same state with another queue: what a step does before anything else. -/
def Requeued (s u : State) : Prop := ∃ es, u = { s with events := es }

/-- What a step to a next state can be: nothing but time passing, one access of an agent, a command taken
up, a micro-step. -/
inductive StepCase (s t : State) : Prop where
  | idle (u : State) (hu : Requeued s u) (hs : s.seq = .idle) (ht : t = u.tick)
  | access (u w : State) (hu : Requeued s u) (ha : OneAccess u w) (ht : t = w.tick)
  | command (u w : State) (hu : Requeued s u) (hs : s.seq = .idle) (ha : Accepted u w) (ht : t = w.tick)
  | micro (u w : State) (b : Busy) (hu : Requeued s u) (hs : s.seq = .busy b)
      (hm : microStep b u = .next w) (ht : t = w.tick)

theorem performAccess_next {a : BusAccess} {s t : State} (h : performAccess a s = .next t) :
    OneAccess s t := by
  unfold performAccess at h
  split at h
  · obtain ⟨u, hu, ho⟩ := access_next a.dir a.addr.toNat a.data s
    rw [hu] at h
    exact Host.Outcome.next.inj h ▸ ho
  · split at h
    · simp at h
    · exact Host.Outcome.next.inj h ▸ noDevice_oneAccess s a.dir

theorem seqMove_cases {s u w : State} (hu : Requeued s u) (h : seqMove u = .next w) :
    StepCase s w.tick := by
  have hseq : u.seq = s.seq := by obtain ⟨es, rfl⟩ := hu; rfl
  unfold seqMove at h
  rw [hseq] at h
  cases hs : s.seq with
  | idle => simp [hs] at h; exact .idle u hu hs (by rw [h])
  | busy b => simp [hs] at h; exact .micro u w b hu hs h rfl

/-- Every step to a next state is one of the cases. -/
theorem step_cases {s t : State} (h : step s = .next t) : StepCase s t := by
  obtain ⟨w, hw, ht⟩ := Result.andThen_eq_next.1 h
  have ht : t = w.tick := (Host.Outcome.next.inj ht).symm
  subst ht
  unfold moveNext at hw
  split at hw
  · exact seqMove_cases ⟨s.events, rfl⟩ hw
  · next rest _ => exact seqMove_cases ⟨rest, rfl⟩ hw
  · next who what rest _ =>
    split at hw
    · exact seqMove_cases ⟨s.events, rfl⟩ hw
    · cases what with
      | access a => exact .access _ w ⟨rest, rfl⟩ (performAccess_next hw) rfl
      | command image =>
        simp only [perform, performCommand] at hw
        split at hw
        · simp at hw
        · split at hw
          · next i _ hi =>
            obtain ⟨hs, ha⟩ := exec_command_next hi hw
            exact .command _ w ⟨rest, rfl⟩ hs ha rfl
          · simp at hw

end Sys2Proof.Machine
end

