-- ==== Sys2Proof/Tests/Slice0.lean ====
section
/-! SUPPORT. Tests of single steps, with the expected result taken from the tables of
`95_test_vectors.md`, and the witnesses: for each statement with hypotheses, a state and operands that
meet them. -/

namespace Sys2Proof.Tests

open Sys2Proof Sys2Proof.Machine

/-! ### Helpers -/

/-- A Port at COM1 with the device there, registers as at the start of V-BUS but for `lcr`, and the
environment's next answers. -/
def port (lcr : Byte) (answers : List Byte) : State :=
  { State.resetWith ⟨lcr, 0x0C#8, 0x00#8, 0x05#8, 0x00#8⟩ with
    base := some com1, home := some com1, env := ⟨answers, 0, 0⟩ }

/-- The same with READBACK = stored. -/
def portStored (lcr : Byte) : State :=
  { port lcr [] with params := ⟨.atPort, .stored⟩ }

/-- The same with no device (program P6). -/
def absent (answers : List Byte) : State := { port 0x07#8 answers with params := ⟨.absent, .draw⟩ }

/-- The same with a Busy sequencer. -/
def busy (lcr : Byte) (answers : List Byte) (cmd : Command) (pc : Label) (v : Byte) (i : Nat) : State :=
  { port lcr answers with seq := .busy ⟨cmd, pc, v, 0#8, i⟩ }

/-- The same with one thing issued by another agent. -/
def issued (s : State) (what : Issue) : State := { s with events := [.issue .other what] }

/-- A byte access. -/
def byteAt (dir : Dir) (addr : Port) (data : Byte) : Issue := .access ⟨dir, addr, data, 0⟩

/-- The stored registers after a next state. -/
def regsOf : Result → Option Regs
  | .next t => some t.regs
  | _ => none

/-- TXLOG and the last log entry after a next state. -/
def logsOf : Result → Option (List Byte × Option BusEntry)
  | .next t => some (t.txLog, t.busLog.getLast?)
  | _ => none

/-- The byte a read returned. -/
def dataOf : Result → Option Byte
  | .next t => some t.readData
  | _ => none

/-- The sequencer after a next state. -/
def seqOf : Result → Option Seq
  | .next t => some t.seq
  | _ => none

/-- The result of a command that ended. -/
def resultOf : Result → Option CmdResult
  | .next t => some t.result
  | _ => none

/-- The refusal. -/
def refusalOf : Result → Option Refusal
  | .refused e => some e
  | _ => none

/-- Whether there is a next state. -/
def isNext : Result → Bool
  | .next _ => true
  | _ => false

theorem next_of_isNext {o : Result} (h : isNext o = true) : ∃ t, o = .next t := by
  cases o <;> simp_all [isNext]

/-! ### WellFormed: each check refuses an ill-formed command and passes a good one (R98) -/

theorem test_wellFormed_base :
    (Instr.construct 0xFFF9#16).wellFormed = false ∧ (Instr.construct 0xFFF8#16).wellFormed = true := by
  decide

theorem test_wellFormed_divisor :
    (Instr.setDivisorSpeed 0#16).wellFormed = false ∧ (Instr.setDivisorSpeed 4#16).wellFormed = false ∧
    (Instr.setDivisorSpeed 3#16).wellFormed = true := by decide

theorem test_wellFormed_parity :
    (Instr.setLineOptions 3#8 false 0x08#8).wellFormed = false ∧
    (Instr.setLineOptions 0xFF#8 true 0x1C#8).wellFormed = true := by decide

/-! ### Decoding: one word per constructor, bit by bit from R92 and R94 (head bytes as log entry 3) -/

theorem test_decode_offset0 :
    decode [0b00100000#8] = .ok .rbrRd ∧ decode [0b00110000#8, 0x41#8] = .ok (.thrWr 0x41#8) ∧
    decode [0b00100001#8] = .ok .dllRd ∧ decode [0b00110001#8, 0x03#8] = .ok (.dllWr 0x03#8) :=
  ⟨rfl, rfl, rfl, rfl⟩

theorem test_decode_offset1 :
    decode [0b00100010#8] = .ok .ierRd ∧ decode [0b00110010#8, 0x0F#8] = .ok (.ierWr 0x0F#8) ∧
    decode [0b00100011#8] = .ok .dlmRd ∧ decode [0b00110011#8, 0x01#8] = .ok (.dlmWr 0x01#8) :=
  ⟨rfl, rfl, rfl, rfl⟩

theorem test_decode_offset2 :
    decode [0b00100100#8] = .ok .iirRd ∧ decode [0b00100101#8] = .ok .iirRd ∧
    decode [0b00110100#8, 0xC7#8] = .ok (.fcrWr 0xC7#8) ∧
    decode [0b00110101#8, 0xC7#8] = .ok (.fcrWr 0xC7#8) := ⟨rfl, rfl, rfl, rfl⟩

theorem test_decode_offset3 :
    decode [0b00100110#8] = .ok .lcrRd ∧ decode [0b00100111#8] = .ok .lcrRd ∧
    decode [0b00110110#8, 0x87#8] = .ok (.lcrWr 0x87#8) ∧
    decode [0b00110111#8, 0x07#8] = .ok (.lcrWr 0x07#8) := ⟨rfl, rfl, rfl, rfl⟩

theorem test_decode_offsets4to7_read :
    decode [0b00101000#8] = .ok .mcrRd ∧ decode [0b00101011#8] = .ok .lsrRd ∧
    decode [0b00101100#8] = .ok .msrRd ∧ decode [0b00101111#8] = .ok .scrRd := ⟨rfl, rfl, rfl, rfl⟩

theorem test_decode_offsets4to7_write :
    decode [0b00111001#8, 0x0B#8] = .ok (.mcrWr 0x0B#8) ∧
    decode [0b00111010#8, 0x00#8] = .ok (.lsrWr 0x00#8) ∧
    decode [0b00111101#8, 0x00#8] = .ok (.msrWr 0x00#8) ∧
    decode [0b00111110#8, 0x5A#8] = .ok (.scrWr 0x5A#8) := ⟨rfl, rfl, rfl, rfl⟩

theorem test_decode_commands0to4 :
    decode [0b01000000#8, 0xF8#8, 0x03#8] = .ok (.construct 0x3F8#16) ∧
    decode [0b01000001#8] = .ok .initializePort ∧
    decode [0b01000010#8, 0xC7#8] = .ok (.setFifoOptions 0xC7#8) ∧
    decode [0b01000011#8, 0x0F#8] = .ok (.setInterruptMask 0x0F#8) ∧
    decode [0b01000100#8, 0x03#8, 0x00#8] = .ok (.setDivisorSpeed 3#16) := ⟨rfl, rfl, rfl, rfl, rfl⟩

theorem test_decode_commands5to8 :
    decode [0b01000101#8, 0x07#8, 0x01#8, 0x00#8] = .ok (.setLineOptions 7#8 true 0x00#8) ∧
    decode [0b01000110#8] = .ok .packetReceived ∧ decode [0b01000111#8] = .ok .transmitEmpty ∧
    decode [0b01001000#8, 0xAC#8, 0x20#8, 0x00#8, 0x00#8] = .ok (.writeChar 0x20AC#32) :=
  ⟨rfl, rfl, rfl, rfl⟩

theorem test_decode_write_str :
    decode ([0b01001001#8, 1#8, 0x48#8, 0#8, 0#8, 0#8] ++ [1#8, 0x69#8, 0#8, 0#8, 0#8, 0#8]) =
      .ok (.writeStr [0x48#32, 0x69#32]) ∧
    decode [0b01001001#8, 0#8] = .ok (.writeStr []) := ⟨rfl, rfl⟩

/-- Images that are no instruction (R94: codes 10 to 15; the rest by log entry 3). -/
theorem test_decode_rejects :
    decode [] = .error .emptyImage ∧ decode [0x00#8] = .error .unknownFormat ∧
    decode [0b01001010#8] = .error .noCommand ∧ decode [0b00110000#8] = .error .badLength ∧
    decode [0b01000101#8, 3#8, 2#8, 0#8] = .error .badBoolean ∧
    decode [0b01001001#8, 2#8] = .error .badMarker := ⟨rfl, rfl, rfl, rfl, rfl, rfl⟩

/-- Table words: a 4-bit word is a command, a 5-bit word a bus access (log entry 4). -/
theorem test_table_words :
    decodeTableWord 5 0x06 = some .lcrRd ∧ decodeTableWord 4 0x6 = some .packetReceived ∧
    decodeTableWord 8 0x16 = some (.lcrWr 0x00#8) ∧ decodeTableWord 8 0x06 = some .packetReceived ∧
    decodeTableWord 8 0x09 = some (.writeStr []) ∧ decodeTableWord 4 0xA = none :=
  ⟨rfl, rfl, rfl, rfl, rfl, rfl⟩

/-! ### V-BUS: bus accesses at the device, by `access` at the addresses of COM1 -/

/-- V-BUS rows 1 and 3: the same address in the two modes; row 3 under READBACK = stored. -/
theorem test_rbr_rd : dataOf (access .read 0x3F8 0#8 (port 0x03#8 [0xA5#8])) = some 0xA5#8 := by decide

theorem test_dll_rd : dataOf (access .read 0x3F8 0#8 (portStored 0x83#8)) = some 0x0C#8 := by decide

/-- V-BUS row 2. -/
theorem test_thr_wr :
    logsOf (access .write 0x3F8 0x41#8 (port 0x03#8 [])) = some ([0x41#8], some (logW 0 false 0x41#8)) ∧
    regsOf (access .write 0x3F8 0x41#8 (port 0x03#8 [])) = some (port 0x03#8 []).regs := by decide

/-- V-BUS row 4. -/
theorem test_dll_wr :
    regsOf (access .write 0x3F8 0x41#8 (port 0x83#8 [])) = some ⟨0x83#8, 0x41#8, 0x00#8, 0x05#8, 0x00#8⟩ ∧
    logsOf (access .write 0x3F8 0x41#8 (port 0x83#8 [])) = some ([], some (logW 0 true 0x41#8)) := by
  decide

/-- V-BUS row 5, under READBACK = stored. -/
theorem test_ier_rd : dataOf (access .read 0x3F9 0#8 (portStored 0x03#8)) = some 0x05#8 := by decide

/-- V-BUS row 7. -/
theorem test_ier_wr :
    regsOf (access .write 0x3F9 0xFF#8 (port 0x03#8 [])) =
      some ⟨0x03#8, 0x0C#8, 0x00#8, 0xFF#8, 0x00#8⟩ := by decide

/-- V-BUS row 8, under READBACK = stored and = draw. -/
theorem test_dlm_rd :
    dataOf (access .read 0x3F9 0#8 (portStored 0x83#8)) = some 0x00#8 ∧
    dataOf (access .read 0x3F9 0#8 (port 0x83#8 [0x77#8])) = some 0x77#8 := by decide

/-- V-BUS row 9. -/
theorem test_dlm_wr :
    regsOf (access .write 0x3F9 0x01#8 (port 0x83#8 [])) =
      some ⟨0x83#8, 0x0C#8, 0x01#8, 0x05#8, 0x00#8⟩ := by decide

/-- V-BUS row 10: a draw, under READBACK = stored too; with no listed answer it is the free value. -/
theorem test_iir_rd :
    dataOf (access .read 0x3FA 0#8 (portStored 0x03#8)) = some (Config.freeByte 0) := rfl

/-- V-BUS row 11. -/
theorem test_fcr_wr :
    regsOf (access .write 0x3FA 0xC7#8 (port 0x03#8 [])) =
      some ⟨0x03#8, 0x0C#8, 0x00#8, 0x05#8, 0xC7#8⟩ := by decide

/-- V-BUS row 14. -/
theorem test_lcr_rd : dataOf (access .read 0x3FB 0#8 (port 0x83#8 [0x55#8])) = some 0x83#8 := by decide

/-- V-BUS rows 15 and 17. -/
theorem test_lcr_wr :
    regsOf (access .write 0x3FB 0x83#8 (port 0x03#8 [])) =
      some ⟨0x83#8, 0x0C#8, 0x00#8, 0x05#8, 0x00#8⟩ ∧
    regsOf (access .write 0x3FB 0xFF#8 (port 0x03#8 [])) =
      some ⟨0xFF#8, 0x0C#8, 0x00#8, 0x05#8, 0x00#8⟩ := by decide

/-- V-BUS rows 18, 20, 22, 24: draws. -/
theorem test_unstored_reads :
    dataOf (access .read 0x3FC 0#8 (port 0x03#8 [0x11#8])) = some 0x11#8 ∧
    dataOf (access .read 0x3FD 0#8 (port 0x03#8 [0x60#8])) = some 0x60#8 ∧
    dataOf (access .read 0x3FE 0#8 (port 0x03#8 [0x33#8])) = some 0x33#8 ∧
    dataOf (access .read 0x3FF 0#8 (port 0x03#8 [0x44#8])) = some 0x44#8 := by decide

/-- V-BUS rows 19, 21, 23, 25: nothing stored. -/
theorem test_unstored_writes :
    regsOf (access .write 0x3FC 0x0B#8 (port 0x03#8 [])) = some (port 0x03#8 []).regs ∧
    regsOf (access .write 0x3FD 0x00#8 (port 0x03#8 [])) = some (port 0x03#8 []).regs ∧
    regsOf (access .write 0x3FE 0x00#8 (port 0x03#8 [])) = some (port 0x03#8 []).regs ∧
    logsOf (access .write 0x3FF 0x5A#8 (port 0x03#8 [])) = some ([], some (logW 7 false 0x5A#8)) := by
  decide

/-- V-ADDR: 0x3F7 and 0x400 reach no device, 0x3FF is offset 7. -/
theorem test_window :
    (port 0x03#8 []).offsetOf 0x3F7 = none ∧ (port 0x03#8 []).offsetOf 0x3F8 = some 0 ∧
    (port 0x03#8 []).offsetOf 0x3FF = some 7 ∧ (port 0x03#8 []).offsetOf 0x400 = none := by decide

/-! ### Commands -/

/-- V-ADDR: 0xFFF8 is the largest admitted base. -/
theorem test_construct :
    resultOf (exec (.construct 0xFFF8#16) State.reset) = some (.port 0xFFF8#16) ∧
    refusalOf (exec (.construct 0xFFF9#16) State.reset) = some .baseOutOfRange := by decide

/-- V-INIT first row, access 1; and access 8 sets INIT's registers (P1 line 8). -/
theorem test_initialize_first_and_last :
    logsOf (seqMove (busy 0x00#8 [] .initializePort .M1 0#8 0)) = some ([], some (logW 1 false 0x00#8)) ∧
    regsOf (seqMove (busy 0x07#8 [] .initializePort .F1 0#8 0)) =
      some ⟨0x07#8, 0x0C#8, 0x00#8, 0x05#8, 0xC7#8⟩ := by decide

/-- S7 with C1: access 7 of initialize writes 0x07. -/
theorem test_initialize_line :
    logsOf (seqMove (busy 0x1B#8 [] .initializePort .L1 0#8 0)) = some ([], some (logW 3 false 0x07#8)) := by
  decide

/-- V-FIFO. -/
theorem test_set_fifo_options :
    logsOf (seqMove (busy 0x87#8 [] (.setFifoOptions 0x00#8) .F1 0#8 0)) =
      some ([], some (logW 2 true 0x00#8)) := by decide

/-- V-MASK, rows 2 and 4 (the latch closed and open). -/
theorem test_set_interrupt_mask :
    regsOf (seqMove (busy 0x07#8 [] (.setInterruptMask 0x0F#8) .M1 0#8 0)) =
      some ⟨0x07#8, 0x0C#8, 0x00#8, 0x0F#8, 0x00#8⟩ ∧
    regsOf (seqMove (busy 0x87#8 [] (.setInterruptMask 0x01#8) .M1 0#8 0)) =
      some ⟨0x87#8, 0x0C#8, 0x01#8, 0x05#8, 0x00#8⟩ := by decide

/-- V-DIV, rows 1 and 2: S2 with v = 0x1B writes 0x9B, S5 with v = 0xFF writes 0x7F. -/
theorem test_set_divisor_speed :
    logsOf (seqMove (busy 0x1B#8 [] (.setDivisorSpeed 3#16) .S2 0x1B#8 0)) =
      some ([], some (logW 3 false 0x9B#8)) ∧
    logsOf (seqMove (busy 0xFF#8 [] (.setDivisorSpeed 1#16) .S5 0xFF#8 0)) =
      some ([], some (logW 3 true 0x7F#8)) := by decide

/-- V-DIV, last row: the datapath of S3 and S4 for 0x0180. -/
theorem test_divisor_halves :
    logsOf (seqMove (busy 0x83#8 [] (.setDivisorSpeed 0x0180#16) .S3 0x03#8 0)) =
      some ([], some (logW 0 true 0x80#8)) ∧
    logsOf (seqMove (busy 0x83#8 [] (.setDivisorSpeed 0x0180#16) .S4 0x03#8 0)) =
      some ([], some (logW 1 true 0x01#8)) := by decide

/-- V-LINE: (2, false, Mark), (7, true, None), (0, true, Even), (0x80, false, None). -/
theorem test_line_byte :
    lineByte 2#8 false 0x14#8 = 0x16#8 ∧ lineByte 7#8 true 0x00#8 = 0x07#8 ∧
    lineByte 0#8 true 0x12#8 = 0x12#8 ∧ lineByte 0x80#8 false 0x00#8 = 0x80#8 := by decide

theorem test_set_line_options :
    regsOf (seqMove (busy 0xFF#8 [] (.setLineOptions 3#8 true 0x1C#8) .L1 0#8 0)) =
      some ⟨0x1F#8, 0x0C#8, 0x00#8, 0x05#8, 0x00#8⟩ ∧
    refusalOf (exec (.setLineOptions 3#8 false 0x08#8) (port 0x03#8 [])) = some .notEnumerated := by
  decide

/-- V-STAT: 0xDF and 0xFE. -/
theorem test_packet_received :
    resultOf (seqMove (busy 0x07#8 [0xDF#8] .packetReceived .P1 0#8 0)) = some (.flag true) ∧
    resultOf (seqMove (busy 0x07#8 [0xFE#8] .packetReceived .P1 0#8 0)) = some (.flag false) := by decide

/-- V-STAT: 0xDF and 0x60. -/
theorem test_transmit_empty :
    resultOf (seqMove (busy 0x07#8 [0xDF#8] .transmitEmpty .T1 0#8 0)) = some (.flag false) ∧
    resultOf (seqMove (busy 0x07#8 [0x60#8] .transmitEmpty .T1 0#8 0)) = some (.flag true) := by decide

/-- V-TX: the answer 0xDF keeps write_char in W1. -/
theorem test_write_char_polls :
    seqOf (seqMove (busy 0x07#8 [0xDF#8] (.writeChar 0x41#32) .W1 0#8 0)) =
      some (.busy ⟨.writeChar 0x41#32, .W1, 0#8, 0xDF#8, 0⟩) := by decide

/-- V-TX: 0x20AC writes 0xAC and the command ends. -/
theorem test_write_char_writes :
    logsOf (seqMove (busy 0x07#8 [] (.writeChar 0x20AC#32) .W2 0#8 0)) =
      some ([0xAC#8], some (logW 0 false 0xAC#8)) ∧
    seqOf (seqMove (busy 0x07#8 [] (.writeChar 0x20AC#32) .W2 0#8 0)) = some .idle := by decide

/-- V-TX: write_str("Hi") at its second character; write_str("") ends at X0. -/
theorem test_write_str :
    logsOf (seqMove (busy 0x07#8 [] (.writeStr [0x48#32, 0x69#32]) .W2 0#8 1)) =
      some ([0x69#8], some (logW 0 false 0x69#8)) ∧
    seqOf (seqMove (busy 0x07#8 [] (.writeStr []) .X0 0#8 0)) = some .idle := by decide

/-- V-REF: set_divisor_speed(12); a command on a Busy Port. -/
theorem test_refusals :
    refusalOf (exec (.setDivisorSpeed 12#16) (port 0x03#8 [])) = some .notEnumerated ∧
    refusalOf (exec .transmitEmpty (busy 0x07#8 [] (.writeChar 0x41#32) .W1 0#8 0)) = some .reentrant := by
  decide

/-- V-REF: a 16-bit write at 0x3F8; and one that ends at 0x3F8 (R65: it touches the window). -/
theorem test_wide_access :
    refusalOf (step (issued (port 0x83#8 []) (.access ⟨.write, 0x3F8#16, 0x03#8, 1⟩))) = some .wideAccess ∧
    refusalOf (step (issued (port 0x83#8 []) (.access ⟨.write, 0x3F7#16, 0x03#8, 1⟩))) = some .wideAccess := by
  decide

/-- V-IRQ: IER 0x00. -/
theorem test_irq : (State.resetWith ⟨0#8, 0#8, 0#8, 0x00#8, 0#8⟩).irq = false := by decide

/-- P6, run (a): the answer 0xFF of a Port with no device is not logged and lets the step report true. -/
theorem test_no_device :
    logsOf (seqMove { absent [0xFF#8] with seq := .busy ⟨.transmitEmpty, .T1, 0#8, 0#8, 0⟩ }) =
      some ([], none) ∧
    resultOf (seqMove { absent [0xFF#8] with seq := .busy ⟨.transmitEmpty, .T1, 0#8, 0#8, 0⟩ }) =
      some (.flag true) := by decide

/-! ### Placing a table word -/

/-- A bus word and a command word run from reset. -/
theorem test_withFetchWord :
    logsOf (step (State.reset.withFetchWord 5 0x11)) = some ([], some (logW 0 true 0x00#8)) ∧
    seqOf (step (State.reset.withFetchWord 8 0x01)) =
      some (.busy ⟨.initializePort, .M1, 0#8, 0#8, 0⟩) := by decide

/-! ### Witnesses: the hypotheses of each statement are met -/

/-- The device stands at the Port. -/
theorem port_atPort (lcr : Byte) (answers : List Byte) : (port lcr answers).DeviceAtPort com1 := ⟨rfl, rfl⟩

theorem witness_CodesTenToFifteenSpellNoCommand :
    10 ≤ (10#4).toNat ∧ 10 ≤ (15#4).toNat ∧ ¬ 10 ≤ (9#4).toNat := by decide

/-- Both modes, for the statements on forms at offsets 0 and 1: LineSideReadsReturnADraw,
ThrWriteAppendsToTxLog, DivisorLatchWritesStoreOneHalf, IerWriteStoresTheMask,
LatchFormsWithTheLatchClosedAreTheirTwins. -/
theorem witness_both_modes :
    (port 0x7F#8 []).dlab = false ∧ (port 0x80#8 []).dlab = true := by decide

theorem witness_ReadBackFollowsTheParameter :
    ((port 0x7F#8 []).params.readback = .draw ∧ (port 0x7F#8 []).dlab = false) ∧
    ((port 0x80#8 []).params.readback = .draw ∧ (port 0x80#8 []).dlab = true) ∧
    ((portStored 0x7F#8).params.readback = .stored ∧ (portStored 0x7F#8).dlab = false) ∧
    ((portStored 0x80#8).params.readback = .stored ∧ (portStored 0x80#8).dlab = true) := by decide

/-- A read form completes in both modes. -/
theorem witness_ReadsChangeNoStoredState :
    (∃ f t, Instr.rbrRd.busForm = some f ∧ f.dir = .read ∧ exec .rbrRd (port 0x80#8 []) = .next t) ∧
    (∃ f t, Instr.scrRd.busForm = some f ∧ f.dir = .read ∧ exec .scrRd (port 0x00#8 []) = .next t) :=
  ⟨⟨_, _, rfl, rfl, rfl⟩, ⟨_, _, rfl, rfl, rfl⟩⟩

/-- A write form completes at offset 0 in both modes, at offset 1 in both modes, and at offsets 2, 3, 7. -/
theorem witness_WritesChangeOnlyTheSelectedRegister :
    (∃ f t, (Instr.thrWr 1#8).busForm = some f ∧ f.off = 0 ∧ f.dir = .write ∧
      exec (.thrWr 1#8) (port 0x00#8 []) = .next t) ∧
    (∃ f t, (Instr.dllWr 1#8).busForm = some f ∧ f.off = 0 ∧ f.dir = .write ∧
      exec (.dllWr 1#8) (port 0x80#8 []) = .next t) ∧
    (∃ f t, (Instr.ierWr 1#8).busForm = some f ∧ f.off = 1 ∧ f.dir = .write ∧
      exec (.ierWr 1#8) (port 0x00#8 []) = .next t) ∧
    (∃ f t, (Instr.dlmWr 1#8).busForm = some f ∧ f.off = 1 ∧ f.dir = .write ∧
      exec (.dlmWr 1#8) (port 0x80#8 []) = .next t) ∧
    (∃ f t, (Instr.fcrWr 1#8).busForm = some f ∧ f.off = 2 ∧ f.dir = .write ∧
      exec (.fcrWr 1#8) (port 0x00#8 []) = .next t) ∧
    (∃ f t, (Instr.lcrWr 1#8).busForm = some f ∧ f.off = 3 ∧ f.dir = .write ∧
      exec (.lcrWr 1#8) (port 0x80#8 []) = .next t) ∧
    (∃ f t, (Instr.scrWr 1#8).busForm = some f ∧ f.off = 7 ∧ f.dir = .write ∧
      exec (.scrWr 1#8) (port 0x00#8 []) = .next t) :=
  ⟨⟨_, _, rfl, rfl, rfl, rfl⟩, ⟨_, _, rfl, rfl, rfl, rfl⟩, ⟨_, _, rfl, rfl, rfl, rfl⟩,
   ⟨_, _, rfl, rfl, rfl, rfl⟩, ⟨_, _, rfl, rfl, rfl, rfl⟩, ⟨_, _, rfl, rfl, rfl, rfl⟩,
   ⟨_, _, rfl, rfl, rfl, rfl⟩⟩

/-- Both clauses at their common boundary: `k + d = 7` and `k + d = 8`, and `d = 0`. -/
theorem witness_OverlappingPortsShiftOffsets :
    (port 0x00#8 []).window = some 0x3F8#16 ∧
    (7 < 8 ∧ (0x3FF#16).toNat = (0x3F8#16).toNat + 7 ∧ (0#3).toNat + 7 ≤ 7) ∧
    (7 < 8 ∧ (0x3FF#16).toNat = (0x3F8#16).toNat + 7 ∧ 7 < (1#3).toNat + 7) ∧
    (0 < 8 ∧ (0x3F8#16).toNat = (0x3F8#16).toNat + 0 ∧ (7#3).toNat + 0 ≤ 7) := by decide

/-- An idle Port, for CommandsAreAcceptedAtTheirFirstStep and WellFormedInstructionsComplete: a form
and an operand for each clause. -/
theorem witness_idle_port :
    (port 0x80#8 []).seq = .idle ∧ (port 0x80#8 []).base = some com1 ∧
    (Instr.setDivisorSpeed 1#16).wellFormed = true ∧ (Instr.setDivisorSpeed 0#16).wellFormed = false ∧
    (Instr.construct 0xFFF8#16).wellFormed = true ∧ (Instr.construct 0xFFF9#16).wellFormed = false ∧
    (Instr.setLineOptions 0xFF#8 true 0x00#8).wellFormed = true ∧
    (Instr.setLineOptions 0#8 false 0xFF#8).wellFormed = false := by decide

theorem witness_CommandsOnABusyPortAreReentrant :
    (Instr.construct 0#16).isCommand = true ∧ (Instr.writeStr []).isCommand = true ∧
    (busy 0x07#8 [] (.writeChar 0x41#32) .W1 0#8 0).seq =
      .busy ⟨.writeChar 0x41#32, .W1, 0#8, 0#8, 0⟩ := by decide

/-- Each clause at the boundary of its range. -/
theorem witness_OperandsOutsideTheTablesAreRefused :
    (port 0x00#8 []).seq = .idle ∧ (port 0x00#8 []).base = some com1 ∧
    State.reset.seq = .idle ∧ State.reset.base = none ∧
    0xFFF8 < (0xFFF9#16).toNat ∧ 0xFFF8 < (0xFFFF#16).toNat ∧
    (0#16 ≠ 1#16 ∧ 0#16 ≠ 2#16 ∧ 0#16 ≠ 3#16) ∧ (4#16 ≠ 1#16 ∧ 4#16 ≠ 2#16 ∧ 4#16 ≠ 3#16) ∧
    (0x01#8 ≠ 0x00#8 ∧ 0x01#8 ≠ 0x04#8 ∧ 0x01#8 ≠ 0x12#8 ∧ 0x01#8 ≠ 0x14#8 ∧ 0x01#8 ≠ 0x1C#8) ∧
    Instr.initializePort.isCommand = true ∧ (∀ b, Instr.initializePort ≠ .construct b) := by
  refine ⟨rfl, rfl, rfl, rfl, ?_⟩
  simp [Instr.isCommand, Instr.busForm]

theorem witness_ConstructSetsTheBaseAlone :
    State.reset.seq = .idle ∧ (0xFFF8#16).toNat ≤ 0xFFF8 ∧ (0x0000#16).toNat ≤ 0xFFF8 := by decide

theorem witness_RegisterAddressesAreBasePlusOffset :
    ∃ t, exec (.construct 0xFFF8#16) State.reset = .next t := ⟨_, rfl⟩

theorem witness_StateAfterFirstConstruct : (0xFFF8#16).toNat ≤ 0xFFF8 := by decide

/-- An idle Port with its device, in both modes: SetFifoOptionsWritesFcr, SetInterruptMaskWritesIerOrDlm,
SetDivisorSpeedRunsTheLatchProtocol, SetLineOptionsWritesTheUnion, InitializeReachesItsDefinedState,
PacketReceivedReportsBitZero, TransmitEmptyReportsBitFive. -/
theorem witness_idle_atPort :
    (0xFF#8 ≠ 0x00#8 ∧ 0xFF#8 ≠ 0x04#8 ∧ 0xFF#8 ≠ 0x12#8 ∧ 0xFF#8 ≠ 0x14#8 ∧ 0xFF#8 ≠ 0x1C#8) ∧
    ((port 0x7F#8 []).seq = .idle ∧ (port 0x7F#8 []).DeviceAtPort com1 ∧ (port 0x7F#8 []).dlab = false) ∧
    ((port 0x80#8 []).seq = .idle ∧ (port 0x80#8 []).DeviceAtPort com1 ∧ (port 0x80#8 []).dlab = true) :=
  ⟨by decide, ⟨rfl, port_atPort _ _, rfl⟩, ⟨rfl, port_atPort _ _, rfl⟩⟩

theorem witness_LatchStepsCarryAnySixteenBitDivisor :
    (busy 0xFF#8 [] (.setDivisorSpeed 0xFFFF#16) .S1 0#8 0).seq =
      .busy ⟨.setDivisorSpeed 0xFFFF#16, .S1, 0#8, 0#8, 0⟩ ∧
    (busy 0xFF#8 [] (.setDivisorSpeed 0xFFFF#16) .S1 0#8 0).DeviceAtPort com1 := ⟨rfl, rfl, rfl⟩

/-- At S3, S4 and S5, the latch closed by another agent (P3, schedule 4). -/
theorem witness_InterveningLineControlWriteMisdirectsTheDivisor :
    (busy 0x03#8 [] (.setDivisorSpeed 2#16) .S3 0x07#8 0).DeviceAtPort com1 ∧
    (busy 0x03#8 [] (.setDivisorSpeed 2#16) .S3 0x07#8 0).dlab = false ∧
    (busy 0x03#8 [] (.setDivisorSpeed 2#16) .S4 0x07#8 0).dlab = false ∧
    (busy 0x03#8 [] (.setDivisorSpeed 2#16) .S5 0x07#8 0).seq =
      .busy ⟨.setDivisorSpeed 2#16, .S5, 0x07#8, 0#8, 0⟩ := ⟨⟨rfl, rfl⟩, rfl, rfl, rfl⟩

theorem witness_LineBytesChangeTheLatchAsSaid :
    (3#8).toNat ≤ 3 ∧ (0#8).toNat ≤ 3 ∧ parityListed 0x1C#8 = true ∧ parityListed 0x00#8 = true := by decide

/-- No poll with bit 5 clear, and two of them before one with it set. -/
theorem witness_WriteCharPollsThenWritesTheLowByte :
    (port 0x07#8 [0x20#8]).upcoming 0 &&& 0x20#8 ≠ 0#8 ∧
    (∀ k, k < 2 → (port 0x07#8 [0xDF#8, 0x1F#8, 0xFF#8]).upcoming k &&& 0x20#8 = 0#8) ∧
    (port 0x07#8 [0xDF#8, 0x1F#8, 0xFF#8]).upcoming 2 &&& 0x20#8 ≠ 0#8 := by decide

/-- With a device at the Port and with none. -/
theorem witness_WriteCharMayPollForAnyNumberOfTurns :
    (port 0x07#8 []).window = some com1 ∧
    ({ port 0x07#8 [] with params := ⟨.absent, .draw⟩ } : State).window = none := ⟨rfl, rfl⟩

/-- V-TX: write_str("Hi") with answers 00, 20, 40, 00, 60; and no characters at all. -/
theorem witness_WriteStrSendsEachCharacterInOrder :
    ((∀ p ∈ [([0x00#8], 0x20#8), ([0x40#8, 0x00#8], 0x60#8)],
        (∀ x ∈ p.1, x &&& 0x20#8 = 0#8) ∧ p.2 &&& 0x20#8 ≠ 0#8) ∧
      (port 0x07#8 [0x00#8, 0x20#8, 0x40#8, 0x00#8, 0x60#8]).ahead 5 =
        [([0x00#8], 0x20#8), ([0x40#8, 0x00#8], 0x60#8)].flatMap (fun p => p.1 ++ [p.2])) ∧
    (port 0x07#8 []).ahead 0 = [] := by decide

/-- An idle Port with no device at its addresses: none at all (program P6), and one that stands elsewhere;
answers as in the witnesses of the statements with a device. CommandsWithNoDeviceStoreNothing,
WriteCharWithNoDeviceStoresNothing, WriteStrWithNoDeviceStoresNothing. -/
theorem witness_idle_noDevice :
    ((absent []).seq = .idle ∧ (absent []).NoDeviceAtPort com1) ∧
    (({ absent [] with params := ⟨.fixed com2, .draw⟩ } : State).NoDeviceAtPort com1) ∧
    ((∀ k, k < 2 → (absent [0xDF#8, 0x1F#8, 0xFF#8]).upcoming k &&& 0x20#8 = 0#8) ∧
      (absent [0xDF#8, 0x1F#8, 0xFF#8]).upcoming 2 &&& 0x20#8 ≠ 0#8) ∧
    (absent [0x00#8, 0x20#8, 0x40#8, 0x00#8, 0x60#8]).ahead 5 =
      [([0x00#8], 0x20#8), ([0x40#8, 0x00#8], 0x60#8)].flatMap (fun p => p.1 ++ [p.2]) :=
  ⟨⟨rfl, rfl, by decide⟩, ⟨rfl, by decide⟩, by decide, by decide⟩

/-- A command issued by another agent, one issued by the host in Idle. -/
theorem witness_StepRunsTheIssuedCommand :
    (issued (port 0x07#8 []) (.command [0b01000010#8, 0xC7#8])).events =
      .issue .other (.command [0b01000010#8, 0xC7#8]) :: [] ∧
    decode [0b01000010#8, 0xC7#8] = .ok (.setFifoOptions 0xC7#8) ∧
    (Instr.setFifoOptions 0xC7#8).isCommand = true := ⟨rfl, rfl, rfl⟩

/-- The first and the last address of the window. -/
theorem witness_StepRunsTheDecodedAccess :
    (issued (port 0x07#8 []) (byteAt .read 0x3F8#16 0#8)).window = some 0x3F8#16 ∧
    (0x3F8#16).toNat ≤ (0x3F8#16).toNat ∧ (0x3FF#16).toNat ≤ (0x3F8#16).toNat + 7 := by decide

/-- The addresses next to the window, and no device at all. -/
theorem witness_StepAnswersAnAccessToNoDevice :
    (∀ w : Port, (issued (port 0x07#8 []) (byteAt .read 0x3F7#16 0#8)).window = some w →
      (0x3F7#16).toNat < w.toNat ∨ w.toNat + 7 < (0x3F7#16).toNat) ∧
    (∀ w : Port, (issued (port 0x07#8 []) (byteAt .write 0x400#16 0#8)).window = some w →
      (0x400#16).toNat < w.toNat ∨ w.toNat + 7 < (0x400#16).toNat) ∧
    (∀ w : Port, (issued State.reset (byteAt .read 0x3F8#16 0#8)).window = some w →
      (0x3F8#16).toNat < w.toNat ∨ w.toNat + 7 < (0x3F8#16).toNat) := by
  refine ⟨fun w hw => ?_, fun w hw => ?_, fun w hw => by cases hw⟩ <;> cases hw <;> decide

/-- The last byte of the access is the window's first, and its first byte the window's last. -/
theorem witness_WideAccessToTheWindowIsRefused :
    (port 0x07#8 []).window = some 0x3F8#16 ∧
    ((0x3F7#16).toNat ≤ (0x3F8#16).toNat + 0 ∧ (0x3F8#16).toNat + 0 ≤ (0x3F7#16).toNat + 1) ∧
    ((0x3FF#16).toNat ≤ (0x3F8#16).toNat + 7 ∧ (0x3F8#16).toNat + 7 ≤ (0x3FF#16).toNat + 1) := by decide

/-- Each clause: nothing queued, the sequencer's turn, the host's next item. -/
theorem witness_StepTurnsTheBusySequencer :
    (busy 0x07#8 [] (.setFifoOptions 1#8) .F1 0#8 0).events = [] ∧
    isNext (step { busy 0x07#8 [] (.setFifoOptions 1#8) .F1 0#8 0 with events := [.turn] }) = true ∧
    isNext (step { busy 0x07#8 [] (.setFifoOptions 1#8) .F1 0#8 0 with
      events := [.issue .host (byteAt .read 0x3FD#16 0#8)] }) = true := by decide

/-- States that meet the invariant: reset, an idle Port, a Busy one; each has a next state. -/
theorem witness_StepKeepsTheInvariant :
    (State.reset.Inv ∧ isNext (step State.reset) = true) ∧
    ((port 0x07#8 []).Inv ∧ isNext (step (issued (port 0x07#8 []) (byteAt .write 0x3F8#16 0x41#8))) = true) ∧
    ((busy 0x07#8 [] (.writeStr [0x48#32]) .W1 0#8 0).Inv ∧
      isNext (step (busy 0x07#8 [0x20#8] (.writeStr [0x48#32]) .W1 0#8 0)) = true) :=
  ⟨⟨⟨rfl, rfl, rfl, rfl, rfl⟩, rfl⟩, ⟨⟨rfl, rfl, rfl, rfl, rfl⟩, rfl⟩, ⟨⟨rfl, rfl, rfl, rfl, rfl⟩, rfl⟩⟩

theorem witness_NoStepFaults : State.reset.Inv ∧ (port 0x07#8 []).Inv :=
  ⟨⟨rfl, rfl, rfl, rfl, rfl⟩, ⟨rfl, rfl, rfl, rfl, rfl⟩⟩

/-- Steps to a next state, one with an access and one without: LogsOnlyGrowByOneAccess,
RegistersFollowTheBusLog. -/
theorem witness_step_next :
    (∃ t, step (issued (port 0x80#8 []) (byteAt .write 0x3F9#16 0x01#8)) = .next t) ∧
    (∃ t, step State.reset = .next t) :=
  ⟨next_of_isNext (by decide), next_of_isNext (by decide)⟩

/-- The last step of initialize sets INIT, and a step from a state that has it. -/
theorem witness_InitIsSetByInitializeAlone :
    (∃ t, step (busy 0x07#8 [] .initializePort .F1 0#8 0) = .next t ∧ t.init = true) ∧
    (busy 0x07#8 [] .initializePort .F1 0#8 0).init = false ∧
    (∃ t, step { port 0x07#8 [] with init := true } = .next t) :=
  ⟨⟨_, rfl, rfl⟩, rfl, ⟨_, rfl⟩⟩

/-- A construct that changes the base of a Port that stands. -/
theorem witness_ParametersAndPlaceAreFixed :
    (port 0x07#8 []).home = some com1 ∧
    ∃ t, step (issued (port 0x07#8 []) (.command [0b01000000#8, 0x00#8, 0x00#8])) = .next t ∧
      t.base ≠ (issued (port 0x07#8 []) (.command [0b01000000#8, 0x00#8, 0x00#8])).base :=
  ⟨rfl, _, rfl, by decide⟩

/-- An access to the place of an absent device. -/
theorem witness_NothingIsStoredWithoutADevice :
    ∃ t, step { issued (port 0x07#8 []) (byteAt .write 0x3F8#16 0x41#8) with
      params := ⟨.absent, .draw⟩ } = .next t := next_of_isNext (by decide)

/-- A mask 0x00 and a mask that is not. -/
theorem witness_IrqIsLowWhileNoSourceIsArmed :
    (State.resetWith ⟨0#8, 0#8, 0#8, 0x00#8, 0#8⟩).ier = 0x00#8 ∧
    (State.resetWith ⟨0#8, 0#8, 0#8, 0x80#8, 0#8⟩).ier ≠ 0x00#8 := by decide

/-- A step that changes IER; a step from IER 0x00 that logs no write of a mask. -/
theorem witness_IrqStaysLowUntilAMaskIsWritten :
    (∃ t, step (issued (port 0x07#8 []) (byteAt .write 0x3F9#16 0x0F#8)) = .next t ∧
      t.ier ≠ (issued (port 0x07#8 []) (byteAt .write 0x3F9#16 0x0F#8)).ier) ∧
    (∃ t, step State.reset = .next t ∧ State.reset.ier = 0x00#8 ∧
      ∀ m : Byte, m ≠ 0x00#8 → t.busLog ≠ State.reset.busLog ++ [logW 1 false m]) :=
  ⟨⟨_, rfl, by decide⟩, ⟨_, rfl, rfl, fun m _ h => nomatch h⟩⟩

/-- A step that changes LCR. -/
theorem witness_DlabIsSetOnlyByALineControlWrite :
    ∃ t, step (issued (port 0x07#8 []) (byteAt .write 0x3FB#16 0x87#8)) = .next t ∧
      t.lcr ≠ (issued (port 0x07#8 []) (byteAt .write 0x3FB#16 0x87#8)).lcr := ⟨_, rfl, by decide⟩

end Sys2Proof.Tests
end

