-- ==== Sys2Proof/Proofs/Encoding.lean ====
section
/-! PROOFS. The statements of `30_encoding.md`. -/

namespace Sys2Proof.Encoding

/-- R92: DLAB selects between two forms at offsets 0 and 1 only; the rows of the other offsets mask it
out. -/
theorem decodeSel_dlab_irrelevant {off : Offset} (h : 2 ≤ off) (dir : Dir) (dlab : Bool) (d : Byte) :
    decodeSel (selector dir off dlab) d = decodeSel (selector dir off false) d := by
  have hoff : off = 2#3 ∨ off = 3#3 ∨ off = 4#3 ∨ off = 5#3 ∨ off = 6#3 ∨ off = 7#3 := by
    revert off; decide
  cases dlab with
  | false => rfl
  | true => rcases hoff with rfl | rfl | rfl | rfl | rfl | rfl <;> cases dir <;> rfl

/-- Settles O3: at offsets 0 and 1 each of the eight selectors has a row of its own; from offset 2 on
DLAB may be taken as 0, and each selector is again a fixed one. -/
theorem accessSelectsTheTabulatedRow : Obligations.AccessSelectsTheTabulatedRow := by
  unfold Obligations.AccessSelectsTheTabulatedRow
  intro d D
  refine ⟨rfl, rfl, rfl, rfl, rfl, rfl, rfl, rfl, ?_, ?_, ?_, ?_, ?_, ?_, ?_, ?_, ?_, ?_, ?_, ?_⟩
  all_goals
    rw [decodeSel_dlab_irrelevant (by decide)]
    rfl

end Sys2Proof.Encoding
end

