-- ==== Sys2Proof/Proofs/BusAccess.lean ====
section
/-! PROOFS. The statements of `40_bus_access.md` on single writes, on LCR_RD and on an access that reaches
no device. -/

namespace Sys2Proof.Machine

/-! ### Writes at offsets 0 and 1: DLAB selects the register (R92)

The two forms of an address run alike (log entry 11), so each address has one lemma per mode. -/

@[simp] theorem State.setLcr_dlab (s : State) (d : Byte) : (s.setLcr d).dlab = d[7] := rfl

theorem exec_dllWr_eq_thrWr (s : State) (d : Byte) : exec (.dllWr d) s = exec (.thrWr d) s := rfl

theorem exec_dlmWr_eq_ierWr (s : State) (d : Byte) : exec (.dlmWr d) s = exec (.ierWr d) s := rfl

section
variable {s : State} (d : Byte)

theorem State.logWrite_eq {dlab : Bool} (h : s.dlab = dlab) (k : Offset) :
    s.logWrite k d = { s with busLog := s.busLog ++ [logW k dlab d] } := by
  subst h; rfl

theorem exec_thrWr_closed (h : s.dlab = false) :
    exec (.thrWr d) s =
      .next { s with txLog := s.txLog ++ [d], busLog := s.busLog ++ [logW 0 false d] } := by
  simp only [exec, execThrWr, h, Bool.false_eq_true, if_false, State.logWrite_eq d h]
  rfl

theorem exec_thrWr_open (h : s.dlab = true) :
    exec (.thrWr d) s = .next { s with dll := d, busLog := s.busLog ++ [logW 0 true d] } := by
  simp only [exec, execThrWr, h, if_true, State.logWrite_eq d h]
  rfl

theorem exec_ierWr_closed (h : s.dlab = false) :
    exec (.ierWr d) s = .next { s with ier := d, busLog := s.busLog ++ [logW 1 false d] } := by
  simp only [exec, execIerWr, h, Bool.false_eq_true, if_false, State.logWrite_eq d h]
  rfl

theorem exec_ierWr_open (h : s.dlab = true) :
    exec (.ierWr d) s = .next { s with dlm := d, busLog := s.busLog ++ [logW 1 true d] } := by
  simp only [exec, execIerWr, h, if_true, State.logWrite_eq d h]
  rfl

end

/-! ### The step of an issued access -/

theorem Result.andThen_tick (o : Result) :
    Result.andThen o (fun t => .next t.tick) = Result.laterOne o := by
  cases o <;> rfl

theorem Agent.waits_eq_false {who : Agent} {s : State} (h : who = .other ∨ s.seq = .idle) :
    who.waits s = false := by
  cases who with
  | other => rfl
  | host =>
    have hseq : s.seq = .idle := h.resolve_left Agent.noConfusion
    simp [Agent.waits, State.isBusy, hseq]

/-- The step of an agent that need not wait is what it issued, and a moment passes. -/
theorem step_issue {s : State} {who : Agent} {what : Issue} {rest : List Event}
    (hev : s.events = .issue who what :: rest) (hwho : who = .other ∨ s.seq = .idle) :
    step s = Result.laterOne (perform what { s with events := rest }) := by
  have hmove : moveNext s = perform what { s with events := rest } := by
    simp [moveNext, hev, Agent.waits_eq_false hwho]
  rw [step, hmove, Result.andThen_tick]

/-- R62, R140: the addresses that select no offset are those outside the window. -/
theorem State.offsetOf_eq_none_iff {s : State} {addr : Nat} :
    s.offsetOf addr = none ↔
      ∀ w : Port, s.window = some w → addr < w.toNat ∨ w.toNat + 7 < addr := by
  unfold State.offsetOf
  cases s.window with
  | none => simp
  | some w =>
    simp only [ite_eq_right_iff, reduceCtorEq, imp_false, Option.some.injEq, forall_eq']
    omega

/-- R141: a byte access at an address that selects no offset. -/
theorem performAccess_noDevice {a : BusAccess} {s : State} (hbyte : a.extra = 0)
    (hout : s.offsetOf a.addr.toNat = none) : performAccess a s = .next (s.noDevice a.dir) := by
  simp [performAccess, hbyte, access, hout]

end Sys2Proof.Machine

namespace Sys2Proof.BusAccess

open Sys2Proof.Machine

/-- Settles O8: the row of LCR_RD masks DLAB out, and its meaning logs and returns the stored LCR. -/
theorem lcrReadReturnsTheStoredByte : Obligations.LcrReadReturnsTheStoredByte :=
  fun _ _ => ⟨rfl, rfl, rfl⟩

/-- Settles O9, by the value of DLAB. -/
theorem thrWriteAppendsToTxLog : Obligations.ThrWriteAppendsToTxLog :=
  fun _ d => ⟨rfl, exec_thrWr_closed d, exec_thrWr_open d⟩

/-- Settles O10: with the latch open DLL_WR and DLM_WR are what THR_WR and IER_WR become. -/
theorem divisorLatchWritesStoreOneHalf : Obligations.DivisorLatchWritesStoreOneHalf :=
  fun s d h => ⟨rfl, rfl, (exec_dllWr_eq_thrWr s d).trans (exec_thrWr_open d h),
    (exec_dlmWr_eq_ierWr s d).trans (exec_ierWr_open d h)⟩

/-- Settles O11, by the value of DLAB. -/
theorem ierWriteStoresTheMask : Obligations.IerWriteStoresTheMask :=
  fun _ d => ⟨rfl, exec_ierWr_closed d, exec_ierWr_open d⟩

/-- Settles O13: the row of FCR_WR masks DLAB out, and its meaning logs the byte and stores it in FCR. -/
theorem fcrWriteStoresTheShadow : Obligations.FcrWriteStoresTheShadow :=
  fun _ _ => ⟨rfl, rfl, rfl⟩

/-- Settles O14: the log entry is made before the byte is stored, so it holds the old DLAB, and the DLAB
of the next state is bit 7 of the stored byte. -/
theorem lcrWriteReplacesAllEightBits : Obligations.LcrWriteReplacesAllEightBits :=
  fun s d => ⟨rfl, rfl, (s.logWrite offLineControl d).setLcr d, rfl, rfl, State.setLcr_dlab _ d⟩

/-- Settles O45: the address selects no offset, so the step is the no-device access of R141. -/
theorem stepAnswersAnAccessToNoDevice : Obligations.StepAnswersAnAccessToNoDevice := by
  unfold Obligations.StepAnswersAnAccessToNoDevice
  intro s who a rest hev hwho hbyte hout
  have hnone : ({ s with events := rest } : State).offsetOf a.addr.toNat = none :=
    State.offsetOf_eq_none_iff.2 hout
  rw [step_issue hev hwho, perform, performAccess_noDevice hbyte hnone]
  cases a.dir <;> rfl

end Sys2Proof.BusAccess
end

