-- ==== Sys2Proof/Proofs/Configuration.lean ====
section
/-! PROOFS. The statements of `41_configuration.md` on the commands of one write: set_fifo_options and
set_line_options. -/

namespace Sys2Proof.Machine

/-! ### From the issued command to its first micro-step (R156) -/

/-- The gate is open in Idle on a Port that exists. -/
theorem State.onIdlePort_eq {s : State} {b : Port} (hidle : s.seq = .idle) (hb : s.base = some b)
    (k : Result) : s.onIdlePort k = k := by
  simp [State.onIdlePort, hidle, hb]

theorem State.DeviceAtPort.start {s : State} {b : Port} (h : s.DeviceAtPort b) (cmd : Command)
    (pc : Label) : (s.start cmd pc).DeviceAtPort b := h

/-- A command of one micro-step: the turn after its acceptance is that step. -/
theorem runCommand_one {i : Instr} {s : State} {cmd : Command} {pc : Label}
    (h : exec i s = .next (s.start cmd pc)) :
    runCommand i 1 s = microStep ⟨cmd, pc, 0#8, 0#8, 0⟩ (s.start cmd pc) := by
  rw [runCommand, h, Result.andThen_next, seqRun_succ, seqMove_busy (State.start_seq s cmd pc)]
  cases microStep _ _ <;> rfl

/-- From an Idle state `done` changes the result alone. -/
theorem State.done_of_idle {s : State} (hidle : s.seq = .idle) (r : CmdResult) :
    s.done r = { s with result := r } := by
  rw [State.done, ← hidle]

/-! ### The operands of set_line_options (R95, R96) -/

theorem parityListed_iff (p : Byte) :
    parityListed p = true ↔
      p = 0x00#8 ∨ p = 0x04#8 ∨ p = 0x12#8 ∨ p = 0x14#8 ∨ p = 0x1C#8 := by
  simp [parityListed, parityCodes, parityNone, parityOdd, parityEven, parityMark, paritySpace]

theorem stopContribution_eq (stop : Bool) :
    stopContribution stop = if stop then 0x02#8 else 0x00#8 := by
  cases stop <;> rfl

/-- A listed parity code has bit 7 clear, and so has the stop contribution: DLAB is bit 7 of the data
byte (R155). -/
theorem lineByte_bit7 (d : Byte) (stop : Bool) {p : Byte} (hp : parityListed p = true) :
    (lineByte d stop p)[7] = d[7] := by
  have hstop : (stopContribution stop)[7] = false := by cases stop <;> rfl
  have hpar : p[7] = false := by
    obtain rfl | rfl | rfl | rfl | rfl := (parityListed_iff p).1 hp <;> rfl
  simp only [lineByte, BitVec.getElem_or, hstop, hpar, Bool.or_false]

/-! ### The two commands at an idle Port with its device -/

section
variable {s : State} {b : Port} (hidle : s.seq = .idle) (hdev : s.DeviceAtPort b)
include hidle hdev

/-- set_fifo_options is accepted and its step F1 is FCR_WR (R152). -/
theorem runCommand_setFifoOptions (o : Byte) :
    runCommand (.setFifoOptions o) 1 s =
      .next (((s.logWrite offIdentFifo o).setFcr o).done .nothing) := by
  have hexec : exec (.setFifoOptions o) s = .next (s.start (.setFifoOptions o) .F1) :=
    State.onIdlePort_eq hidle hdev.1 _
  rw [runCommand_one hexec]
  exact portAccess_write_fifo (hdev.start _ _) o _

/-- What set_line_options comes to is decided by its parity code alone. -/
theorem exec_setLineOptions (d : Byte) (stop : Bool) (p : Byte) :
    exec (.setLineOptions d stop p) s =
      if parityListed p then .next (s.start (.setLineOptions d stop p) .L1)
      else .refused .notEnumerated :=
  State.onIdlePort_eq hidle hdev.1 _

/-- With a listed parity code the step L1 of set_line_options is LCR_WR of the line byte (R155). -/
theorem runCommand_setLineOptions (d : Byte) (stop : Bool) {p : Byte} (hp : parityListed p = true) :
    runCommand (.setLineOptions d stop p) 1 s =
      .next (((s.logWrite offLineControl (lineByte d stop p)).setLcr (lineByte d stop p)).done
        .nothing) := by
  have hexec : exec (.setLineOptions d stop p) s = .next (s.start (.setLineOptions d stop p) .L1) := by
    rw [exec_setLineOptions hidle hdev, if_pos hp]
  rw [runCommand_one hexec]
  exact portAccess_write_lineControl (hdev.start _ _) (lineByte d stop p) _

end

end Sys2Proof.Machine

namespace Sys2Proof.Configuration

open Sys2Proof.Machine

/-- Settles O27: the command's one step is FCR_WR, after which the sequencer is Idle as it was before. -/
theorem setFifoOptionsWritesFcr : Obligations.SetFifoOptionsWritesFcr := by
  unfold Obligations.SetFifoOptionsWritesFcr
  intro s b o hidle hdev
  have hdone : ((s.logWrite offIdentFifo o).setFcr o).seq = .idle := hidle
  rw [runCommand_setFifoOptions hidle hdev, State.done_of_idle hdone]
  rfl

/-- Settles O32: a listed parity code leads to one LCR_WR of the line byte, which is the union said; any
other code is refused at the gate. -/
theorem setLineOptionsWritesTheUnion : Obligations.SetLineOptionsWritesTheUnion := by
  unfold Obligations.SetLineOptionsWritesTheUnion
  intro s b d st p hidle hdev
  constructor
  · intro hcode
    have hp : parityListed p = true := (parityListed_iff p).2 hcode
    have hdone (v : Byte) : ((s.logWrite offLineControl v).setLcr v).seq = .idle := hidle
    rw [← stopContribution_eq]
    refine ⟨_, runCommand_setLineOptions hidle hdev d st hp, ?_, lineByte_bit7 d st hp⟩
    rw [State.done_of_idle (hdone _)]
    rfl
  · intro h00 h04 h12 h14 h1C
    have hp : ¬ parityListed p = true := by simp [parityListed_iff, h00, h04, h12, h14, h1C]
    rw [exec_setLineOptions hidle hdev, if_neg hp]

end Sys2Proof.Configuration
end

