-- ==== Sys2Proof/Proofs/StatusTransmit.lean ====
section
/-! PROOFS. The statements of `42_status_and_transmit.md` on the commands of one status read:
packet_received and transmit_empty. -/

namespace Sys2Proof.Machine

/-! ### The line-status tests are single bits (R95) -/

/-- A byte under a one-bit mask is nonzero exactly if that bit is set. -/
theorem and_twoPow_bne_zero (v : Byte) {k : Nat} (hk : k < 8) :
    (v &&& BitVec.twoPow 8 k != 0#8) = v[k] := by
  have hmask : BitVec.twoPow 8 k ≠ 0#8 := fun h => by
    simpa [BitVec.getElem_twoPow] using congrArg (·[k]) h
  rw [BitVec.and_twoPow, BitVec.getLsbD_eq_getElem hk]
  cases v[k] with
  | false => rfl
  | true => exact bne_iff_ne.2 hmask

theorem isDataReady_eq (v : Byte) : isDataReady v = v[0] :=
  and_twoPow_bne_zero v (k := 0) (by decide)

theorem isTransmitEmpty_eq (v : Byte) : isTransmitEmpty v = v[5] :=
  and_twoPow_bne_zero v (k := 5) (by decide)

/-! ### A command of one status read -/

/-- A command whose one micro-step reads line status and reports the flag `test` of the byte: the byte is
the next draw, and from Idle the command leaves nothing else changed but the log. -/
theorem runCommand_statusRead {i : Instr} {s : State} {b : Port} {cmd : Command} {pc : Label}
    {test : Byte → Bool} (hidle : s.seq = .idle) (hdev : s.DeviceAtPort b)
    (hexec : exec i s = s.onIdlePort (.next (s.start cmd pc)))
    (hstep : ∀ t, microStep ⟨cmd, pc, 0#8, 0#8, 0⟩ t =
      portAccess .read offLineStatus 0#8 t fun u => .next (u.done (.flag (test u.readData)))) :
    runCommand i 1 s =
      .next { s.readDrawn offLineStatus with result := .flag (test (s.upcoming 0)) } := by
  have haccept : exec i s = .next (s.start cmd pc) :=
    hexec.trans (State.onIdlePort_eq hidle hdev.1 _)
  have hdone : (s.readDrawn offLineStatus).seq = .idle := hidle
  rw [runCommand_one haccept, hstep, portAccess_read_lineStatus (hdev.start cmd pc),
    ← State.done_of_idle hdone]
  rfl

end Sys2Proof.Machine

namespace Sys2Proof.StatusTransmit

open Sys2Proof.Machine

/-- Settles O35: the step P1 is one status read that reports the data-ready test, which is bit 0. -/
theorem packetReceivedReportsBitZero : Obligations.PacketReceivedReportsBitZero := by
  unfold Obligations.PacketReceivedReportsBitZero
  intro s b hidle hdev
  rw [← isDataReady_eq]
  exact runCommand_statusRead hidle hdev rfl fun _ => rfl

/-- Settles O36: the step T1 is one status read that reports the transmit-empty test, which is bit 5. -/
theorem transmitEmptyReportsBitFive : Obligations.TransmitEmptyReportsBitFive := by
  unfold Obligations.TransmitEmptyReportsBitFive
  intro s b hidle hdev
  rw [← isTransmitEmpty_eq]
  exact runCommand_statusRead hidle hdev rfl fun _ => rfl

end Sys2Proof.StatusTransmit
end

