-- ==== Sys2Proof/Proofs/Image.lean ====
section
/-! PROOFS. The remaining statements of `30_encoding.md`: the round trip of the byte image, the cover of
the selectors, the codes that spell no command, the line-control bytes. -/

namespace Sys2Proof.Encoding

/-- The image of a bus access is a head with the selector of its row, and the byte of a write. -/
theorem decode_encode_access {i : Instr} {f : BusForm} (h : i.busForm = some f) :
    decode (encode i) = .ok i := by
  cases i <;> simp only [Instr.busForm, reduceCtorEq] at h <;> rfl

/-- A command is read by its code; what the low-byte-first layout splits, the decoder joins. -/
theorem decode_encode_command {i : Instr} (h : i.busForm = none) : decode (encode i) = .ok i := by
  cases i <;> simp only [Instr.busForm, reduceCtorEq] at h
  case construct b => simp [encode, decode_cmdHead, decodeCommand, decodeHalf]
  case setDivisorSpeed c => simp [encode, decode_cmdHead, decodeCommand, decodeHalf]
  case setLineOptions d st p => cases st <;> rfl
  case writeChar c => simp [encode, decode_cmdHead, decodeCommand, decodeChar]
  case writeStr cs => simp [encode, decode_cmdHead, decodeCommand, Except.map]
  all_goals rfl

/-- Settles O1: an image is read back in the format of its head byte. -/
theorem decodeOfEncodeIsTheInstruction : Obligations.DecodeOfEncodeIsTheInstruction := by
  unfold Obligations.DecodeOfEncodeIsTheInstruction
  intro i
  cases hf : i.busForm with
  | some f => exact decode_encode_access hf
  | none => exact decode_encode_command hf

/-- Every selector is that of its direction, offset and mode bit. -/
theorem selector_of_bits (sel : Selector) :
    selector (if sel.getLsbD 4 then .write else .read) (sel.extractLsb' 1 3) (sel.getLsbD 0) = sel := by
  revert sel; decide

theorem offset_cases (off : Offset) :
    off = 0#3 ∨ off = 1#3 ∨ off = 2#3 ∨ off = 3#3 ∨ off = 4#3 ∨ off = 5#3 ∨ off = 6#3 ∨ off = 7#3 := by
  revert off; decide

/-- The cover of R92 at the selector of an access, by direction, offset and mode bit. -/
theorem selector_has_one_row (dir : Dir) (off : Offset) (dlab : Bool) (d : Byte) :
    ∃ f : BusForm, (decodeSel (selector dir off dlab) d).busForm = some f ∧
      busTable.filter (·.accepts (selector dir off dlab)) = [f.row] ∧ f.dir = dir ∧ f.off = off ∧
      (∀ mode, f.latch = some mode → mode = dlab) ∧ (f.dir = .write → f.data = d) := by
  rcases offset_cases off with rfl | rfl | rfl | rfl | rfl | rfl | rfl | rfl <;> cases dir <;>
    cases dlab <;> exact ⟨_, rfl, by simp only [BusForm.row]; decide, rfl, rfl, by simp, by simp⟩

/-- Settles O2: the five bits of a selector are a direction, an offset and a mode bit, and for each of
these one row accepts. -/
theorem everySelectorMatchesOneRow : Obligations.EverySelectorMatchesOneRow := by
  unfold Obligations.EverySelectorMatchesOneRow
  refine ⟨rfl, fun sel d => ?_⟩
  have h := selector_has_one_row (if sel.getLsbD 4 then .write else .read) (sel.extractLsb' 1 3)
    (sel.getLsbD 0) d
  rwa [selector_of_bits] at h

/-- Settles O4: the six codes from 10 on are none of the ten that the decoder tests. -/
theorem codesTenToFifteenSpellNoCommand : Obligations.CodesTenToFifteenSpellNoCommand := by
  unfold Obligations.CodesTenToFifteenSpellNoCommand
  intro op operands h
  have hop : op = 10#4 ∨ op = 11#4 ∨ op = 12#4 ∨ op = 13#4 ∨ op = 14#4 ∨ op = 15#4 := by
    revert op; decide
  rcases hop with rfl | rfl | rfl | rfl | rfl | rfl <;> rfl

/-- Settles O5: nine closed words, each decoded by evaluation. -/
theorem specPatternsDecode : Obligations.SpecPatternsDecode :=
  ⟨rfl, rfl, rfl, rfl, rfl, rfl, rfl, rfl, rfl⟩

end Sys2Proof.Encoding

namespace Sys2Proof.Machine

/-! ### The line-control bytes (R95, R97) -/

/-- The latch-open value sets bit 7 and keeps the others. -/
theorem latchOpen_getLsbD (v : Byte) {k : Nat} (hk : k < 8) :
    (latchOpen v).getLsbD k = (v.getLsbD k || k == 7) := by
  have hmask : ∀ k < 8, dlabMask.getLsbD k = (k == 7) := by decide
  rw [latchOpen, BitVec.getLsbD_or, hmask k hk]

/-- The latch-close value clears bit 7 and keeps the others. -/
theorem latchClose_getLsbD (v : Byte) {k : Nat} (hk : k < 8) :
    (latchClose v).getLsbD k = (v.getLsbD k && k != 7) := by
  have hmask : ∀ k < 8, dlabClearMask.getLsbD k = (k != 7) := by decide
  rw [latchClose, BitVec.getLsbD_and, hmask k hk]

@[simp] theorem latchOpen_bit7 (v : Byte) : (latchOpen v)[7] = true := by
  simpa using latchOpen_getLsbD v (k := 7) (by decide)

@[simp] theorem latchClose_bit7 (v : Byte) : (latchClose v)[7] = false := by
  simpa using latchClose_getLsbD v (k := 7) (by decide)

end Sys2Proof.Machine

namespace Sys2Proof.Encoding

open Sys2Proof.Machine

/-- Settles O33: bit 7 of the line byte is that of the data byte, and the two masks differ from all ones
and from zero in bit 7 alone. -/
theorem lineBytesChangeTheLatchAsSaid : Obligations.LineBytesChangeTheLatchAsSaid := by
  unfold Obligations.LineBytesChangeTheLatchAsSaid
  refine ⟨fun d st p hd hp => ?_, fun v => ⟨latchOpen_bit7 v, latchClose_bit7 v, fun k hk => ?_⟩⟩
  · rw [lineByte_bit7 d st hp]
    revert d; decide
  · have h8 : k < 8 := by omega
    have h7 : k ≠ 7 := by omega
    simp [latchOpen_getLsbD v h8, latchClose_getLsbD v h8, h7]

end Sys2Proof.Encoding
end

