-- ==== Sys2Proof/Proofs/Frames.lean ====
section
/-! PROOFS. The remaining statements of `40_bus_access.md`: the answer of each read, the frames of the
reads and of the writes; and the window of `20_memory.md` R62, R74. -/

namespace Sys2Proof.Machine

/-! ### What one logged access does to each register (R20) -/

/-- Each register under the condition on which the access stores to it. -/
theorem Regs.after_eq (r : Regs) (e : BusEntry) :
    r.after e =
      { lcr := if e.dir = .write ∧ e.off = 3#3 then e.data else r.lcr
        dll := if e.dir = .write ∧ e.off = 0#3 ∧ r.lcr[7] = true then e.data else r.dll
        dlm := if e.dir = .write ∧ e.off = 1#3 ∧ r.lcr[7] = true then e.data else r.dlm
        ier := if e.dir = .write ∧ e.off = 1#3 ∧ r.lcr[7] = false then e.data else r.ier
        fcr := if e.dir = .write ∧ e.off = 2#3 then e.data else r.fcr } := by
  obtain ⟨dir, off, dlab, data⟩ := e
  cases dir with
  | read => simp [Regs.after]
  | write =>
    rcases Encoding.offset_cases off with rfl | rfl | rfl | rfl | rfl | rfl | rfl | rfl <;>
      cases h : r.lcr[7] <;> simp [Regs.after, h]

section
variable {s t : State} {e : BusEntry} (h : Entered s t e)
include h

theorem Entered.lcr : t.lcr = if e.dir = .write ∧ e.off = 3#3 then e.data else s.lcr :=
  congrArg Regs.lcr (h.regs.trans (s.regs.after_eq e))

theorem Entered.dll :
    t.dll = if e.dir = .write ∧ e.off = 0#3 ∧ s.dlab = true then e.data else s.dll :=
  congrArg Regs.dll (h.regs.trans (s.regs.after_eq e))

theorem Entered.dlm :
    t.dlm = if e.dir = .write ∧ e.off = 1#3 ∧ s.dlab = true then e.data else s.dlm :=
  congrArg Regs.dlm (h.regs.trans (s.regs.after_eq e))

theorem Entered.ier :
    t.ier = if e.dir = .write ∧ e.off = 1#3 ∧ s.dlab = false then e.data else s.ier :=
  congrArg Regs.ier (h.regs.trans (s.regs.after_eq e))

theorem Entered.fcr : t.fcr = if e.dir = .write ∧ e.off = 2#3 then e.data else s.fcr :=
  congrArg Regs.fcr (h.regs.trans (s.regs.after_eq e))

end

/-! ### The forms -/

/-- The entry that an access form which reached `t` logged. -/
theorem exec_bus_entered {i : Instr} {f : BusForm} {s t : State} (hf : i.busForm = some f)
    (ht : exec i s = .next t) :
    ∃ x, Entered s t ⟨f.dir, f.off, s.dlab, x⟩ ∧ (f.dir = .write → x = f.data) := by
  obtain ⟨u, x, hu, he, hx⟩ := exec_bus hf s
  obtain rfl : u = t := Host.Outcome.next.inj (hu.symm.trans ht)
  exact ⟨x, he, hx⟩

theorem State.readBack_busLog (s : State) (k : Offset) (b : Byte) :
    (s.readBack k b).busLog = s.busLog ++ [logR k s.dlab (s.readBack k b).readData] := by
  unfold State.readBack
  split <;> rfl

/-- A read hands the byte that it logs to its agent. -/
theorem exec_read_busLog {i : Instr} {f : BusForm} {s t : State} (hf : i.busForm = some f)
    (hr : f.dir = .read) (ht : exec i s = .next t) :
    t.busLog = s.busLog ++ [logR f.off s.dlab t.readData] := by
  cases i <;> simp only [Instr.busForm, Option.some.injEq, reduceCtorEq] at hf <;> subst hf <;>
    cases hr <;> cases ht
  case rbrRd => split; exacts [State.readBack_busLog s _ _, rfl]
  case dllRd => split; exacts [State.readBack_busLog s _ _, rfl]
  case ierRd => split <;> exact State.readBack_busLog s _ _
  case dlmRd => split <;> exact State.readBack_busLog s _ _
  all_goals rfl

/-- A write draws nothing and returns nothing. -/
theorem exec_write_agent {i : Instr} {f : BusForm} {s t : State} (hf : i.busForm = some f)
    (hw : f.dir = .write) (ht : exec i s = .next t) : t.readData = s.readData ∧ t.env = s.env := by
  cases i <;> simp only [Instr.busForm, Option.some.injEq, reduceCtorEq] at hf <;> subst hf <;>
    cases hw <;> cases ht
  case thrWr d => cases s.dlab <;> exact ⟨rfl, rfl⟩
  case dllWr d => cases s.dlab <;> exact ⟨rfl, rfl⟩
  case ierWr d => cases s.dlab <;> exact ⟨rfl, rfl⟩
  case dlmWr d => cases s.dlab <;> exact ⟨rfl, rfl⟩
  all_goals exact ⟨rfl, rfl⟩

/-! ### The read at offset 0 or 1, by DLAB and READBACK (R92, D4) -/

section
variable {s : State}

theorem State.readBack_draw (h : s.params.readback = .draw) (k : Offset) (b : Byte) :
    s.readBack k b = s.readDrawn k := by simp [State.readBack, h]

theorem State.readBack_stored (h : s.params.readback = .stored) (k : Offset) (b : Byte) :
    s.readBack k b = s.logRead k b := by simp [State.readBack, h]

theorem exec_rbrRd_closed (h : s.dlab = false) : exec .rbrRd s = .next (s.readDrawn offData) := by
  simp [exec, execRbrRd, h]

theorem exec_dllRd_open (h : s.dlab = true) :
    exec .dllRd s = .next (s.readBack offData s.dll) := by simp [exec, execDllRd, h]

theorem exec_dlmRd_open (h : s.dlab = true) :
    exec .dlmRd s = .next (s.readBack offInterrupt s.dlm) := by simp [exec, execDlmRd, h]

theorem exec_ierRd_closed (h : s.dlab = false) :
    exec .ierRd s = .next (s.readBack offInterrupt s.ier) := by simp [exec, execIerRd, h]

end

theorem exec_dllRd_eq_rbrRd (s : State) : exec .dllRd s = exec .rbrRd s := rfl

theorem exec_dlmRd_eq_ierRd (s : State) : exec .dlmRd s = exec .ierRd s := rfl

end Sys2Proof.Machine

namespace Sys2Proof.BusAccess

open Sys2Proof.Machine

/-- Settles O6: with the latch closed RBR_RD is a drawn read, as the five reads of unstored registers
always are. -/
theorem lineSideReadsReturnADraw : Obligations.LineSideReadsReturnADraw :=
  fun s => ⟨exec_rbrRd_closed, fun _ => (exec_dllRd_eq_rbrRd s).symm, rfl, rfl, rfl, rfl, rfl⟩

/-- Settles O7, by the value of READBACK and of DLAB. -/
theorem readBackFollowsTheParameter : Obligations.ReadBackFollowsTheParameter := by
  unfold Obligations.ReadBackFollowsTheParameter
  intro s drawn kept
  refine ⟨fun hdraw => ?_, fun hstored => ?_, fun _ => (exec_dlmRd_eq_ierRd s).symm⟩
  · have back (k : Offset) (b : Byte) : s.readBack k b = drawn k := State.readBack_draw hdraw k b
    refine ⟨fun h => ⟨?_, ?_⟩, fun h => ?_⟩
    · rw [exec_dllRd_open h, back]; rfl
    · rw [exec_dlmRd_open h, back]; rfl
    · rw [exec_ierRd_closed h, back]; rfl
  · have back (k : Offset) (b : Byte) : s.readBack k b = kept k b := State.readBack_stored hstored k b
    refine ⟨fun h => ⟨?_, ?_⟩, fun h => ?_⟩
    · rw [exec_dllRd_open h, back]; rfl
    · rw [exec_dlmRd_open h, back]; rfl
    · rw [exec_ierRd_closed h, back]; rfl

/-- Settles O12: the two forms of an address run alike, so the latch forms are what the twins become with
the latch closed. -/
theorem latchFormsWithTheLatchClosedAreTheirTwins :
    Obligations.LatchFormsWithTheLatchClosedAreTheirTwins :=
  fun s d h => ⟨(exec_dllWr_eq_thrWr s d).trans (exec_thrWr_closed d h),
    (exec_dlmWr_eq_ierWr s d).trans (exec_ierWr_closed d h), exec_dllRd_eq_rbrRd s,
    exec_dlmRd_eq_ierRd s⟩

/-- Settles O15: the rows of these writes mask DLAB out, and their meanings log and do no more. -/
theorem unstoredWritesChangeOnlyTheLog : Obligations.UnstoredWritesChangeOnlyTheLog :=
  fun _ _ => ⟨rfl, rfl, rfl, rfl, rfl, rfl, rfl, rfl, rfl, rfl, rfl, rfl⟩

/-- Settles O16: the environment whose one listed answer is the byte. -/
theorem everyByteIsAPossibleDraw : Obligations.EveryByteIsAPossibleDraw :=
  fun _ x => ⟨⟨[x], 0, 0⟩, rfl, _, rfl, rfl⟩

/-- Settles O17: an access form keeps all but registers and logs, and what a read enters in the log
changes no register and sends no byte. -/
theorem readsChangeNoStoredState : Obligations.ReadsChangeNoStoredState := by
  unfold Obligations.ReadsChangeNoStoredState
  intro i f s t hf hr ht
  obtain ⟨x, ⟨hkept, -, hregs, htx⟩, -⟩ := exec_bus_entered hf ht
  have hregs' : t.regs = s.regs := by simpa [Regs.after, hr] using hregs
  have htx' : t.txLog = s.txLog := by simpa [BusEntry.sent, hr] using htx
  exact ⟨hregs', htx', hkept.base, hkept.home, hkept.init, hkept.seq, hkept.result, hkept.events,
    hkept.params, hkept.moment, t.readData, rfl, exec_read_busLog hf hr ht⟩

/-- Settles O18: the write enters one entry in the log, and each register follows that entry. -/
theorem writesChangeOnlyTheSelectedRegister : Obligations.WritesChangeOnlyTheSelectedRegister := by
  unfold Obligations.WritesChangeOnlyTheSelectedRegister
  intro i f s t hf hw ht
  obtain ⟨x, he, hx⟩ := exec_bus_entered hf ht
  obtain rfl := hx hw
  obtain ⟨hdata, henv⟩ := exec_write_agent hf hw ht
  have hkept := he.kept
  refine ⟨hkept.base, hkept.home, hkept.init, hkept.seq, hkept.result, hdata, henv, hkept.events,
    hkept.params, by rw [he.log, hw], fun h => ?_, fun h => ?_, fun h => ?_, fun h => ?_, fun h => ?_,
    fun h => ?_⟩
  · rw [he.lcr, if_neg fun hc => h hc.2]
  · rw [he.dll, if_neg fun hc => h hc.2]
  · rw [he.dlm, if_neg fun hc => h hc.2]
  · rw [he.ier, if_neg fun hc => h hc.2]
  · rw [he.fcr, if_neg fun hc => h hc.2]
  · have hsent : BusEntry.sent ⟨f.dir, f.off, s.dlab, f.data⟩ = none := if_neg fun hc => h hc.2
    simpa [hsent] using he.tx

/-- Settles O19: the offset an address selects is its distance from the base of the window. -/
theorem overlappingPortsShiftOffsets : Obligations.OverlappingPortsShiftOffsets := by
  unfold Obligations.OverlappingPortsShiftOffsets
  intro s w b d k hw hd hb
  have haddr : portAddr b k = w.toNat + (k.toNat + d) := by simp only [portAddr]; omega
  refine ⟨fun h => ?_, fun h => ?_⟩
  · have hin : w.toNat ≤ w.toNat + (k.toNat + d) ∧ w.toNat + (k.toNat + d) ≤ w.toNat + 7 := by omega
    rw [haddr]
    simp only [State.offsetOf, hw, if_pos hin, Nat.add_sub_cancel_left]
  · rw [State.offsetOf_eq_none_iff]
    intro w' hw'
    obtain rfl : w = w' := Option.some.inj (hw.symm.trans hw')
    omega

end Sys2Proof.BusAccess
end

