-- ==== Sys2Proof/Proofs/Acceptance.lean ====
section
/-! PROOFS. Acceptance and refusal of commands (`41_configuration.md` R150, R156, `60_exceptions.md`
R192), construct, and set_interrupt_mask. -/

namespace Sys2Proof.Machine

/-! ### The gate (R94, R156, R221) -/

theorem State.onIdlePort_busy {s : State} {y : Busy} (h : s.seq = .busy y) (k : Result) :
    s.onIdlePort k = .refused .reentrant := by simp [State.onIdlePort, h]

theorem State.onIdlePort_noPort {s : State} (hidle : s.seq = .idle) (hb : s.base = none) (k : Result) :
    s.onIdlePort k = .refused .noPort := by simp [State.onIdlePort, hidle, hb]

/-- Every command but construct answers through the gate. -/
theorem exec_eq_onIdlePort {i : Instr} (hi : i.isCommand = true) (hc : ∀ b, i ≠ .construct b)
    (s : State) : ∃ k, exec i s = s.onIdlePort k := by
  cases i <;> simp only [Instr.isCommand, Instr.busForm, Option.isNone, reduceCtorEq] at hi
  case construct b => exact absurd rfl (hc b)
  all_goals exact ⟨_, rfl⟩

/-- A command that began in Idle ends with the sequencer as it was before. -/
theorem State.done_eq_of_idle {s : State} (hidle : s.seq = .idle) (t : State) (r : CmdResult) :
    t.done r = { t with seq := s.seq, result := r } := by
  rw [hidle]; rfl

/-! ### The operand tables (R96) -/

theorem divisorListed_iff (c : Divisor) :
    divisorListed c = true ↔ c = 1#16 ∨ c = 2#16 ∨ c = 3#16 := by
  simp [divisorListed, baudTable]

theorem baseInRange_iff (b : Port) : baseInRange b = true ↔ b.toNat ≤ 0xFFF8 := decide_eq_true_iff

/-! ### Commands on an idle Port -/

/-- In Idle construct is decided by its base alone (R150). -/
theorem exec_construct {s : State} (hidle : s.seq = .idle) (b : Port) :
    exec (.construct b) s =
      if baseInRange b then .next ({ s with base := some b, home := s.home.or (some b) }.done (.port b))
      else .refused .baseOutOfRange := by
  simp only [exec, execConstruct, hidle]

section
variable {s : State} {p : Port} (hidle : s.seq = .idle) (hb : s.base = some p)
include hidle hb

/-- What set_divisor_speed comes to is decided by its code alone. -/
theorem exec_setDivisorSpeed (c : Divisor) :
    exec (.setDivisorSpeed c) s =
      if divisorListed c then .next (s.start (.setDivisorSpeed c) .S1)
      else .refused .notEnumerated :=
  State.onIdlePort_eq hidle hb _

/-- As `exec_setLineOptions`, of any Port. -/
theorem exec_setLineOptions_onPort (d : Byte) (stop : Bool) (q : Byte) :
    exec (.setLineOptions d stop q) s =
      if parityListed q then .next (s.start (.setLineOptions d stop q) .L1)
      else .refused .notEnumerated :=
  State.onIdlePort_eq hidle hb _

theorem exec_setDivisorSpeed_listed {c : Divisor} (hc : c = 1#16 ∨ c = 2#16 ∨ c = 3#16) :
    exec (.setDivisorSpeed c) s = .next (s.start (.setDivisorSpeed c) .S1) := by
  rw [exec_setDivisorSpeed hidle hb, if_pos ((divisorListed_iff c).2 hc)]

theorem exec_setLineOptions_listed (d : Byte) (stop : Bool) {q : Byte}
    (hq : q = 0x00#8 ∨ q = 0x04#8 ∨ q = 0x12#8 ∨ q = 0x14#8 ∨ q = 0x1C#8) :
    exec (.setLineOptions d stop q) s = .next (s.start (.setLineOptions d stop q) .L1) := by
  rw [exec_setLineOptions_onPort hidle hb, if_pos ((parityListed_iff q).2 hq)]

end

theorem wellFormed_of_access {i : Instr} {f : BusForm} (hf : i.busForm = some f) :
    i.wellFormed = true := by
  cases i <;> simp only [Instr.busForm, reduceCtorEq] at hf <;> rfl

end Sys2Proof.Machine

namespace Sys2Proof.Acceptance

open Sys2Proof.Machine

/-- Settles O20: the gate is open, and listed operands pass their tables. -/
theorem commandsAreAcceptedAtTheirFirstStep : Obligations.CommandsAreAcceptedAtTheirFirstStep := by
  unfold Obligations.CommandsAreAcceptedAtTheirFirstStep
  intro s b hidle hb at_
  have gate (k : Result) : s.onIdlePort k = k := State.onIdlePort_eq hidle hb k
  exact ⟨gate _, fun _ => gate _, fun _ => gate _,
    fun _ => exec_setDivisorSpeed_listed hidle hb,
    fun d st _ => exec_setLineOptions_listed hidle hb d st,
    gate _, gate _, fun _ => gate _, fun _ => gate _⟩

/-- Settles O21: construct looks at the sequencer first, and so does the gate of every other command. -/
theorem commandsOnABusyPortAreReentrant : Obligations.CommandsOnABusyPortAreReentrant := by
  unfold Obligations.CommandsOnABusyPortAreReentrant
  intro i s y hi hbusy
  by_cases hc : ∃ b, i = .construct b
  · obtain ⟨b, rfl⟩ := hc
    simp only [exec, execConstruct, hbusy]
  · obtain ⟨k, hk⟩ := exec_eq_onIdlePort hi (fun b hb => hc ⟨b, hb⟩) s
    rw [hk, State.onIdlePort_busy hbusy]

/-- Settles O22: each operand misses its table; with no Port the gate is closed. -/
theorem operandsOutsideTheTablesAreRefused : Obligations.OperandsOutsideTheTablesAreRefused := by
  unfold Obligations.OperandsOutsideTheTablesAreRefused
  intro s p hidle
  refine ⟨fun b hb => ?_, fun hport => ⟨fun c h1 h2 h3 => ?_, fun d st q h00 h04 h12 h14 h1C => ?_⟩,
    fun hnone i hi hc => ?_⟩
  · have hrange : ¬ baseInRange b = true := by rw [baseInRange_iff]; omega
    rw [exec_construct hidle, if_neg hrange]
  · have hlist : ¬ divisorListed c = true := by simp [divisorListed_iff, h1, h2, h3]
    rw [exec_setDivisorSpeed hidle hport, if_neg hlist]
  · have hlist : ¬ parityListed q = true := by simp [parityListed_iff, h00, h04, h12, h14, h1C]
    rw [exec_setLineOptions_onPort hidle hport, if_neg hlist]
  · obtain ⟨k, hk⟩ := exec_eq_onIdlePort hi hc s
    rw [hk, State.onIdlePort_noPort hidle hnone]

/-- Settles O23: an access form always completes, and a command on an idle Port is decided by its operand
table where it has one. -/
theorem wellFormedInstructionsComplete : Obligations.WellFormedInstructionsComplete := by
  unfold Obligations.WellFormedInstructionsComplete
  intro i s p hidle hb
  have gate (k : Result) : s.onIdlePort k = k := State.onIdlePort_eq hidle hb k
  cases hf : i.busForm with
  | some f =>
    obtain ⟨t, -, ht, -⟩ := exec_bus hf s
    simp [wellFormed_of_access hf, ht]
  | none =>
    cases i <;> simp only [Instr.busForm, reduceCtorEq] at hf
    case construct b =>
      rw [exec_construct hidle]
      cases h : baseInRange b <;> simp [Instr.wellFormed, h]
    case setDivisorSpeed c =>
      rw [exec_setDivisorSpeed hidle hb]
      cases h : divisorListed c <;> simp [Instr.wellFormed, h]
    case setLineOptions d st q =>
      rw [exec_setLineOptions_onPort hidle hb]
      cases h : parityListed q <;> simp [Instr.wellFormed, h]
    all_goals exact ⟨fun _ => ⟨_, gate _⟩, nofun⟩

/-- Settles O24: an admitted base is accepted in Idle, and the end of construct leaves the sequencer as
it was. -/
theorem constructSetsTheBaseAlone : Obligations.ConstructSetsTheBaseAlone := by
  unfold Obligations.ConstructSetsTheBaseAlone
  intro s b hidle hb
  have hdone : ({ s with base := some b, home := s.home.or (some b) } : State).seq = .idle := hidle
  rw [exec_construct hidle, if_pos ((baseInRange_iff b).2 hb), State.done_of_idle hdone]
  cases s.home <;> rfl

/-- Settles O25: construct is accepted for admitted bases alone, and 0xFFF8 + 7 is the last address. -/
theorem registerAddressesAreBasePlusOffset : Obligations.RegisterAddressesAreBasePlusOffset := by
  unfold Obligations.RegisterAddressesAreBasePlusOffset
  intro s t b h
  obtain ⟨hidle, -⟩ := exec_command_next rfl h
  rw [exec_construct hidle] at h
  split at h
  · next hb =>
    have hmax : b.toNat ≤ 0xFFF8 := (baseInRange_iff b).1 hb
    cases h
    refine ⟨rfl, fun k => ⟨rfl, ?_⟩⟩
    have hk : k.toNat < 8 := k.isLt
    simp only [portAddr]
    omega
  · cases h

/-- Settles O26: construct from the state of reset, where the device takes the place of the Port. -/
theorem stateAfterFirstConstruct : Obligations.StateAfterFirstConstruct := by
  unfold Obligations.StateAfterFirstConstruct
  intro r b hb
  refine ⟨rfl, _, constructSetsTheBaseAlone (State.resetWith r) b rfl hb, ?_⟩
  exact ⟨rfl, rfl, rfl, rfl, rfl, rfl, rfl⟩

/-- Settles O28: the step M1 is the write at offset 1, which DLAB directs. -/
theorem setInterruptMaskWritesIerOrDlm : Obligations.SetInterruptMaskWritesIerOrDlm := by
  unfold Obligations.SetInterruptMaskWritesIerOrDlm
  intro s b m hidle hdev
  have hexec : exec (.setInterruptMask m) s = .next (s.start (.setInterruptMask m) .M1) :=
    State.onIdlePort_eq hidle hdev.1 _
  have hstart := hdev.start (.setInterruptMask m) .M1
  rw [runCommand_one hexec]
  refine ⟨fun h => ?_, fun h => ?_⟩
  · refine (portAccess_write_interrupt_closed hstart m _ h).trans ?_
    simp only [endPart, State.done_eq_of_idle hidle, ← h]
    rfl
  · refine (portAccess_write_interrupt_open hstart m _ h).trans ?_
    simp only [endPart, State.done_eq_of_idle hidle, ← h]
    rfl

end Sys2Proof.Acceptance
end

