-- ==== Sys2Proof/Proofs/Stepping.lean ====
section
/-! PROOFS. What one step runs (`00_scope.md` R11, `40_bus_access.md` R140, R65). -/

namespace Sys2Proof.Machine

/-- R140: a byte access inside the window selects its distance from the base. -/
theorem State.offsetOf_inside {s : State} {w : Port} {addr : Nat} (hw : s.window = some w)
    (hlo : w.toNat ≤ addr) (hhi : addr ≤ w.toNat + 7) :
    s.offsetOf addr = some (BitVec.ofNat 3 (addr - w.toNat)) := by
  simp [State.offsetOf, hw, hlo, hhi]

theorem State.touchesWindow_iff {s : State} {w : Port} (hw : s.window = some w) (addr extra : Nat) :
    s.touchesWindow addr extra = true ↔ addr ≤ w.toNat + 7 ∧ w.toNat ≤ addr + extra := by
  simp [State.touchesWindow, hw]

/-- The step is the move, and a moment passes. -/
theorem step_eq_laterOne (s : State) : step s = Result.laterOne (moveNext s) :=
  Result.andThen_tick _

end Sys2Proof.Machine

namespace Sys2Proof.Stepping

open Sys2Proof.Machine

/-- Settles O43: an issuer that need not wait has its image performed, which is exec of its command. -/
theorem stepRunsTheIssuedCommand : Obligations.StepRunsTheIssuedCommand := by
  unfold Obligations.StepRunsTheIssuedCommand
  intro s who image rest i hev hwho himage hi
  rw [step_issue hev hwho]
  simp only [perform, performCommand, himage, if_pos hi]

/-- Settles O44: an issuer that need not wait has its access performed, and the address selects an offset
of the window. -/
theorem stepRunsTheDecodedAccess : Obligations.StepRunsTheDecodedAccess := by
  unfold Obligations.StepRunsTheDecodedAccess
  intro s who a rest w hev hwho hbyte hw hlo hhi
  have hoff : ({ s with events := rest } : State).offsetOf a.addr.toNat =
      some (BitVec.ofNat 3 (a.addr.toNat - w.toNat)) := State.offsetOf_inside hw hlo hhi
  rw [step_issue hev hwho]
  simp only [perform, performAccess, if_pos hbyte, access, hoff]
  rfl

/-- Settles O46: an access whose range holds `w + k` reaches into the window from either side. -/
theorem wideAccessToTheWindowIsRefused : Obligations.WideAccessToTheWindowIsRefused := by
  unfold Obligations.WideAccessToTheWindowIsRefused
  intro s who a rest w k hev hwho hw hk hwide hlo hhi
  have hbyte : ¬ a.extra = 0 := by omega
  have htouch : ({ s with events := rest } : State).touchesWindow a.addr.toNat a.extra = true := by
    refine (State.touchesWindow_iff hw _ _).2 ?_
    omega
  rw [step_issue hev hwho]
  simp only [perform, performAccess, if_neg hbyte, if_pos htouch, Result.laterOne]

/-- Settles O47: in each of the three cases the move is the sequencer's, which is Busy. -/
theorem stepTurnsTheBusySequencer : Obligations.StepTurnsTheBusySequencer := by
  unfold Obligations.StepTurnsTheBusySequencer
  intro s y hbusy
  have hwaits : Agent.waits .host s = true := by simp [Agent.waits, State.isBusy, hbusy]
  refine ⟨fun hev => ?_, fun rest hev => ?_, fun what rest hev => ?_⟩ <;>
    rw [step_eq_laterOne] <;> simp only [moveNext, hev]
  · rw [seqMove_busy hbusy]
  · rw [seqMove_busy (s := { s with events := rest }) hbusy]
  · rw [if_pos hwaits, seqMove_busy hbusy]

end Sys2Proof.Stepping
end

