-- ==== Sys2Proof/Proofs/WholeMachine.lean ====
section
/-! PROOFS. The rules over every step: the invariant, no fault, the logs and the registers as functions
of the one access a step makes, INIT, the fixed parameters, the interrupt request. -/

namespace Sys2Proof.Machine

/-! ### The invariant -/

/-- What the invariant says of a Busy sequencer, as `microStep_next` asks for it. -/
theorem State.Inv.busy {s : State} {y : Busy} (h : s.Inv) (hbusy : s.seq = .busy y) :
    (∃ p, s.base = some p) ∧ y.cmd.labels.contains y.pc = true ∧ y.indexOk = true := by
  have hseq := h.seq_legal
  simp only [State.seqOk, hbusy, Bool.and_eq_true, Option.isSome_iff_exists] at hseq
  exact ⟨hseq.1.1, hseq.1.2, hseq.2⟩

theorem State.seqOk_busy {s : State} {y : Busy} (hbusy : s.seq = .busy y)
    (hbase : s.base.isSome = true) (hl : y.cmd.labels.contains y.pc = true)
    (hi : y.indexOk = true) : s.seqOk = true := by
  simp only [State.seqOk, hbusy, hbase, hl, hi, Bool.and_self]

/-- A move that leaves the Port and the logs alone keeps the invariant if it leaves the sequencer legal. -/
theorem State.Inv.of_place {s t : State} (h : s.Inv) (hbase : t.base = s.base) (hhome : t.home = s.home)
    (hlog : t.busLog = s.busLog) (htx : t.txLog = s.txLog) (hseq : t.seqOk = true) : t.Inv where
  base_legal := hbase ▸ h.base_legal
  home_legal := hhome ▸ h.home_legal
  home_iff := by rw [hbase, hhome]; exact h.home_iff
  seq_legal := hseq
  tx_sublog := by rw [hlog, htx]; exact h.tx_sublog

theorem Requeued.inv {s u : State} (hu : Requeued s u) (h : s.Inv) : u.Inv := by
  obtain ⟨es, rfl⟩ := hu
  exact h.of_place rfl rfl rfl rfl h.seq_legal

theorem State.Inv.tick {s : State} (h : s.Inv) : s.tick.Inv :=
  h.of_place rfl rfl rfl rfl h.seq_legal

/-- One access keeps the invariant: what it adds to TXLOG is what its entry says. -/
theorem OneAccess.inv {s t : State} (ha : OneAccess s t) (h : s.Inv) : t.Inv := by
  obtain ⟨hkept, hlog⟩ := ha
  have hseq : t.seqOk = true := by
    rw [← h.seq_legal, State.seqOk, State.seqOk, hkept.seq, hkept.base]
  rcases hlog with ⟨hbus, -, htx⟩ | ⟨-, e, -, he⟩
  · exact h.of_place hkept.base hkept.home hbus htx hseq
  · refine ⟨hkept.base ▸ h.base_legal, hkept.home ▸ h.home_legal, ?_, hseq, ?_⟩
    · rw [hkept.home, hkept.base, h.home_iff]
    · rw [he.tx, he.log, h.tx_sublog, List.filterMap_append]

/-- Acceptance keeps the invariant: construct admits legal bases alone, and a command starts at a label
of its own. -/
theorem Accepted.inv {s t : State} (ha : Accepted s t) (hidle : s.seq = .idle) (h : s.Inv) : t.Inv := by
  cases ha with
  | construct b hb ht =>
    subst ht
    refine ⟨hb, ?_, ?_, ?_, h.tx_sublog⟩
    · have hhome := h.home_legal
      cases hh : s.home with
      | none => simpa using hb
      | some w => simpa [hh] using hhome
    · cases s.home <;> rfl
    · simp only [State.seqOk, hidle]
  | start cmd pc p hp ht hpc hi =>
    subst ht
    have hbase : s.base.isSome = true := by rw [hp]; rfl
    exact h.of_place rfl rfl rfl rfl (State.seqOk_busy rfl hbase hpc hi)

/-- The end of a micro-step keeps the invariant: it stays in the labels of the command, with its index in
range, or leaves the sequencer Idle. -/
theorem StepEnd.inv {y : Busy} {u t : State} (he : StepEnd y u t) (hbase : u.base.isSome = true)
    (h : u.Inv) : t.Inv := by
  cases he with
  | goto y' pc ht hcmd hpc hi =>
    subst ht
    exact h.of_place rfl rfl rfl rfl (State.seqOk_busy rfl hbase (hcmd ▸ hpc) hi)
  | done r ht hr =>
    subst ht
    exact h.of_place rfl rfl rfl rfl rfl
  | init hcmd hpc ht =>
    subst ht
    exact h.of_place rfl rfl rfl rfl rfl

theorem microStep_inv {s t : State} {y : Busy} (h : s.Inv) (hbusy : s.seq = .busy y)
    (hm : microStep y s = .next t) : t.Inv := by
  obtain ⟨⟨p, hp⟩, hl, hi⟩ := h.busy hbusy
  obtain ⟨u, t', ht', hu, hend⟩ := microStep_next hp hl hi
  obtain rfl : t' = t := Host.Outcome.next.inj (ht'.symm.trans hm)
  have hbase : u.base.isSome = true := by
    rcases hu with rfl | ha
    · rw [hp]; rfl
    · rw [ha.kept.base, hp]; rfl
  have huInv : u.Inv := by
    rcases hu with rfl | ha
    · exact h
    · exact ha.inv h
  exact hend.inv hbase huInv

/-! ### No fault -/

theorem State.onIdlePort_ne_fault {s : State} {k : Result} {e : Fault} (hk : k ≠ .fault e) :
    s.onIdlePort k ≠ .fault e := by
  unfold State.onIdlePort
  cases s.seq <;> cases s.base <;> simp [hk]

/-- No instruction faults, in any state. -/
theorem exec_ne_fault (i : Instr) (s : State) (e : Fault) : exec i s ≠ .fault e := by
  cases hf : i.busForm with
  | some f =>
    obtain ⟨t, -, ht, -⟩ := exec_bus hf s
    rw [ht]
    exact nofun
  | none =>
    cases i <;> simp only [Instr.busForm, reduceCtorEq] at hf
    case construct b =>
      simp only [exec, execConstruct]
      split
      · exact nofun
      · split <;> exact nofun
    case setDivisorSpeed c => exact State.onIdlePort_ne_fault (by split <;> exact nofun)
    case setLineOptions d st q => exact State.onIdlePort_ne_fault (by split <;> exact nofun)
    all_goals exact State.onIdlePort_ne_fault nofun

theorem perform_ne_fault (what : Issue) (s : State) (e : Fault) : perform what s ≠ .fault e := by
  cases what with
  | command image =>
    simp only [perform, performCommand]
    split
    · exact nofun
    · split
      · exact exec_ne_fault _ s e
      · exact nofun
  | access a =>
    simp only [perform, performAccess]
    split
    · obtain ⟨t, ht, -⟩ := access_next a.dir a.addr.toNat a.data s
      rw [ht]
      exact nofun
    · split <;> exact nofun

/-- The sequencer's turn faults only where the invariant fails. -/
theorem seqMove_ne_fault {s : State} (h : s.Inv) (e : Fault) : seqMove s ≠ .fault e := by
  cases hs : s.seq with
  | idle => simp [seqMove, hs]
  | busy y =>
    obtain ⟨⟨p, hp⟩, hl, hi⟩ := h.busy hs
    obtain ⟨-, t, ht, -⟩ := microStep_next hp hl hi
    rw [seqMove_busy hs, ht]
    exact nofun

theorem moveNext_ne_fault {s : State} (h : s.Inv) (e : Fault) : moveNext s ≠ .fault e := by
  unfold moveNext
  split
  · exact seqMove_ne_fault h e
  · exact seqMove_ne_fault (Requeued.inv ⟨_, rfl⟩ h) e
  · split
    · exact seqMove_ne_fault h e
    · exact perform_ne_fault _ _ e

/-! ### The access that a step logs -/

/-- What a step does to registers and logs: nothing, or what one logged access does, which arrived with
DLAB as it was and reached a device. -/
inductive Logged (s t : State) : Prop where
  | nothing (log : t.busLog = s.busLog) (regs : t.regs = s.regs) (tx : t.txLog = s.txLog)
  | entry (e : BusEntry) (device : s.window ≠ none) (dlab : e.dlab = s.dlab)
      (log : t.busLog = s.busLog ++ [e]) (regs : t.regs = s.regs.after e)
      (tx : t.txLog = s.txLog ++ [e].filterMap BusEntry.sent)

theorem OneAccess.logged {s t : State} (h : OneAccess s t) : Logged s t := by
  rcases h.log with ⟨hlog, hregs, htx⟩ | ⟨hw, e, hd, he⟩
  · exact .nothing hlog hregs htx
  · exact .entry e hw hd he.log he.regs he.tx

theorem StepKind.logged {y : Busy} {s u t : State} (hk : StepKind y u t)
    (hu : u = s ∨ OneAccess s u) : Logged s t := by
  have hl : Logged s u := by
    rcases hu with rfl | ha
    · exact .nothing rfl rfl rfl
    · exact ha.logged
  have hsame : t.busLog = u.busLog ∧ t.regs = u.regs ∧ t.txLog = u.txLog := by
    cases hk with
    | goto y' pc ht hcmd => subst ht; exact ⟨rfl, rfl, rfl⟩
    | done r ht hr => subst ht; exact ⟨rfl, rfl, rfl⟩
    | init hcmd hpc ht => subst ht; exact ⟨rfl, rfl, rfl⟩
  obtain ⟨hlog, hregs, htx⟩ := hsame
  cases hl with
  | nothing log regs tx => exact .nothing (hlog.trans log) (hregs.trans regs) (htx.trans tx)
  | entry e device dlab log regs tx =>
    exact .entry e device dlab (hlog.trans log) (hregs.trans regs) (htx.trans tx)

theorem Accepted.logged {s t : State} (ha : Accepted s t) : Logged s t := by
  cases ha with
  | construct b hb ht => subst ht; exact .nothing rfl rfl rfl
  | start cmd pc p hp ht hpc hi => subst ht; exact .nothing rfl rfl rfl

theorem Logged.of_requeued {s u w : State} (hu : Requeued s u) (h : Logged u w) : Logged s w.tick := by
  obtain ⟨es, rfl⟩ := hu
  cases h with
  | nothing log regs tx => exact .nothing log regs tx
  | entry e device dlab log regs tx => exact .entry e device dlab log regs tx

/-- Every step logs at most one access, and registers and logs change as it says. -/
theorem step_logged {s t : State} (h : step s = .next t) : Logged s t := by
  cases step_cases h with
  | idle u hu hs ht => exact ht ▸ .of_requeued hu (.nothing rfl rfl rfl)
  | access u w hu ha ht => exact ht ▸ .of_requeued hu ha.logged
  | command u w hu hs ha ht => exact ht ▸ .of_requeued hu ha.logged
  | micro u w y hu hs hm ht =>
    obtain ⟨v, hv, hk⟩ := microStep_cases hm
    exact ht ▸ .of_requeued hu (hk.logged hv)

/-- A step that changes IER logged the write of the new value at offset 1 with DLAB = 0. -/
theorem step_ier_changed {s t : State} (h : step s = .next t) (hne : t.ier ≠ s.ier) :
    t.busLog = s.busLog ++ [logW 1 false t.ier] := by
  cases step_logged h with
  | nothing log regs tx => exact absurd (congrArg Regs.ier regs) hne
  | entry e device dlab log regs tx =>
    have hier := congrArg Regs.ier (regs.trans (s.regs.after_eq e))
    obtain ⟨dir, off, mode, data⟩ := e
    dsimp only at hier dlab
    split at hier
    · next hc =>
      obtain ⟨rfl, rfl, hclosed⟩ := hc
      have hmode : mode = false := dlab.trans hclosed
      obtain rfl : t.ier = data := hier
      rw [log, hmode]
      rfl
    · exact absurd hier hne

/-- A step that changes LCR logged the write of the new value at offset 3. -/
theorem step_lcr_changed {s t : State} (h : step s = .next t) (hne : t.lcr ≠ s.lcr) :
    t.busLog = s.busLog ++ [logW 3 s.dlab t.lcr] := by
  cases step_logged h with
  | nothing log regs tx => exact absurd (congrArg Regs.lcr regs) hne
  | entry e device dlab log regs tx =>
    have hlcr := congrArg Regs.lcr (regs.trans (s.regs.after_eq e))
    obtain ⟨dir, off, mode, data⟩ := e
    dsimp only at hlcr dlab
    split at hlcr
    · next hc =>
      obtain ⟨rfl, rfl⟩ := hc
      obtain rfl : t.lcr = data := hlcr
      rw [log, dlab]
      rfl
    · exact absurd hlcr hne

/-! ### The Port, the parameters and INIT -/

/-- What a step does to the Port, the parameters and INIT. -/
inductive Fixed (s t : State) : Prop where
  | same (base : t.base = s.base) (home : t.home = s.home) (init : t.init = s.init)
      (params : t.params = s.params)
  | initialized (y : Busy) (hy : s.seq = .busy y) (hcmd : y.cmd = .initializePort) (hpc : y.pc = .F1)
      (base : t.base = s.base) (home : t.home = s.home) (init : t.init = true)
      (params : t.params = s.params)
  | constructed (b : Port) (before : s.seq = .idle) (after : t.seq = .idle) (base : t.base = some b)
      (home : t.home = s.home.or (some b)) (result : t.result = .port b) (init : t.init = s.init)
      (params : t.params = s.params)

theorem OneAccess.fixed {s t : State} (h : OneAccess s t) : Fixed s t :=
  .same h.kept.base h.kept.home h.kept.init h.kept.params

theorem Accepted.fixed {s t : State} (ha : Accepted s t) (hidle : s.seq = .idle) : Fixed s t := by
  cases ha with
  | construct b hb ht => subst ht; exact .constructed b hidle hidle rfl rfl rfl rfl rfl
  | start cmd pc p hp ht hpc hi => subst ht; exact .same rfl rfl rfl rfl

theorem StepKind.fixed {y : Busy} {s u t : State} (hk : StepKind y u t) (hy : s.seq = .busy y)
    (hu : u = s ∨ OneAccess s u) : Fixed s t := by
  have hkept : Kept s u := by
    rcases hu with rfl | ha
    · exact .refl u
    · exact ha.kept
  cases hk with
  | goto y' pc ht hcmd => subst ht; exact .same hkept.base hkept.home hkept.init hkept.params
  | done r ht hr => subst ht; exact .same hkept.base hkept.home hkept.init hkept.params
  | init hcmd hpc ht =>
    subst ht
    exact .initialized y hy hcmd hpc hkept.base hkept.home rfl hkept.params

theorem Fixed.of_requeued {s u w : State} (hu : Requeued s u) (h : Fixed u w) : Fixed s w.tick := by
  obtain ⟨es, rfl⟩ := hu
  cases h with
  | same base home init params => exact .same base home init params
  | initialized y hy hcmd hpc base home init params =>
    exact .initialized y hy hcmd hpc base home init params
  | constructed b before after base home result init params =>
    exact .constructed b before after base home result init params

theorem step_fixed {s t : State} (h : step s = .next t) : Fixed s t := by
  cases step_cases h with
  | idle u hu hs ht => exact ht ▸ .of_requeued hu (.same rfl rfl rfl rfl)
  | access u w hu ha ht => exact ht ▸ .of_requeued hu ha.fixed
  | command u w hu hs ha ht =>
    have hidle : u.seq = .idle := by obtain ⟨es, rfl⟩ := hu; exact hs
    exact ht ▸ .of_requeued hu (ha.fixed hidle)
  | micro u w y hu hs hm ht =>
    have hbusy : u.seq = .busy y := by obtain ⟨es, rfl⟩ := hu; exact hs
    obtain ⟨v, hv, hk⟩ := microStep_cases hm
    exact ht ▸ .of_requeued hu (hk.fixed hbusy hv)

theorem State.irq_of_ier_zero {s : State} (h : s.ier = 0x00#8) : s.irq = false := by
  simp [State.irq, h]

end Sys2Proof.Machine

namespace Sys2Proof.WholeMachine

open Sys2Proof.Machine

/-- Settles O48: at reset there is no Port, the sequencer is Idle and the logs are empty. -/
theorem resetMeetsTheInvariant : Obligations.ResetMeetsTheInvariant :=
  ⟨fun _ => ⟨rfl, rfl, rfl, rfl, rfl⟩, ⟨rfl, rfl, rfl, rfl, rfl⟩⟩

/-- Settles O49: each kind of step keeps the invariant. -/
theorem stepKeepsTheInvariant : Obligations.StepKeepsTheInvariant := by
  unfold Obligations.StepKeepsTheInvariant
  intro s t h hstep
  cases step_cases hstep with
  | idle u hu hs ht => exact ht ▸ (hu.inv h).tick
  | access u w hu ha ht => exact ht ▸ (ha.inv (hu.inv h)).tick
  | command u w hu hs ha ht =>
    have hidle : u.seq = .idle := by obtain ⟨es, rfl⟩ := hu; exact hs
    exact ht ▸ (ha.inv hidle (hu.inv h)).tick
  | micro u w y hu hs hm ht =>
    have hbusy : u.seq = .busy y := by obtain ⟨es, rfl⟩ := hu; exact hs
    exact ht ▸ (microStep_inv (hu.inv h) hbusy hm).tick

/-- Settles O50: what agents issue never faults, and the sequencer's turn only outside the invariant. -/
theorem noStepFaults : Obligations.NoStepFaults := by
  unfold Obligations.NoStepFaults
  intro s e h hstep
  rw [step_eq_laterOne] at hstep
  have hmove := moveNext_ne_fault h
  cases hm : moveNext s with
  | next t => simp [hm, Result.laterOne] at hstep
  | fault e' => exact hmove e' hm
  | refused r => simp [hm, Result.laterOne] at hstep

/-- Settles O51: the entries a step logs are none or one. -/
theorem logsOnlyGrowByOneAccess : Obligations.LogsOnlyGrowByOneAccess := by
  unfold Obligations.LogsOnlyGrowByOneAccess
  intro s t h
  cases step_logged h with
  | nothing log regs tx => exact ⟨[], by simp, by simp [log], by simp [tx]⟩
  | entry e device dlab log regs tx => exact ⟨[e], by simp, log, tx⟩

/-- Settles O52: the registers are the fold of the logged entries over those before, none or one. -/
theorem registersFollowTheBusLog : Obligations.RegistersFollowTheBusLog := by
  unfold Obligations.RegistersFollowTheBusLog
  intro s t h
  cases step_logged h with
  | nothing log regs tx => exact ⟨[], by simp [log], regs, by simp⟩
  | entry e device dlab log regs tx => exact ⟨[e], log, regs, by simp [dlab]⟩

/-- Settles O53: the one step that touches INIT is F1 of `Command.initializePort`, and it sets it. -/
theorem initIsSetByInitializeAlone : Obligations.InitIsSetByInitializeAlone := by
  unfold Obligations.InitIsSetByInitializeAlone
  intro s t h
  have hkeep (init : t.init = s.init) (h₀ : s.init = false) (h₁ : t.init = true) : False :=
    Bool.false_ne_true (h₀.symm.trans (init.symm.trans h₁))
  cases step_fixed h with
  | same base home init params => exact ⟨init.trans, fun h₀ h₁ => (hkeep init h₀ h₁).elim⟩
  | initialized y hy hcmd hpc base home init params =>
    exact ⟨fun _ => init, fun _ _ => ⟨y, hy, hcmd, hpc⟩⟩
  | constructed b before after base home result init params =>
    exact ⟨init.trans, fun h₀ h₁ => (hkeep init h₀ h₁).elim⟩

/-- Settles O54: the one step that touches the base is an accepted construct, which keeps a place once
given. -/
theorem parametersAndPlaceAreFixed : Obligations.ParametersAndPlaceAreFixed := by
  unfold Obligations.ParametersAndPlaceAreFixed
  intro s t h
  cases step_fixed h with
  | same base home init params =>
    exact ⟨params, fun _ hw => home.trans hw, fun hne => absurd base hne⟩
  | initialized y hy hcmd hpc base home init params =>
    exact ⟨params, fun _ hw => home.trans hw, fun hne => absurd base hne⟩
  | constructed b before after base home result init params =>
    exact ⟨params, fun _ hw => by simp [home, hw], fun _ => ⟨b, base, result, after, before⟩⟩

/-- Settles O55: an access is logged only if a device decodes somewhere. -/
theorem nothingIsStoredWithoutADevice : Obligations.NothingIsStoredWithoutADevice := by
  unfold Obligations.NothingIsStoredWithoutADevice
  intro s t habsent h
  cases step_logged h with
  | nothing log regs tx => exact ⟨regs, log, tx⟩
  | entry e device dlab log regs tx =>
    have hnone : s.window = none := by simp [State.window, habsent]
    exact absurd hnone device

/-- Settles O56: the request is the free level of the moment, gated by a non-zero IER. -/
theorem irqIsLowWhileNoSourceIsArmed : Obligations.IrqIsLowWhileNoSourceIsArmed := by
  unfold Obligations.IrqIsLowWhileNoSourceIsArmed
  exact fun s => ⟨State.irq_of_ier_zero, fun h => by simp [State.irq, h]⟩

/-- Settles O57: a step that leaves IER other than 0x00 would have logged the write of that mask. -/
theorem irqStaysLowUntilAMaskIsWritten : Obligations.IrqStaysLowUntilAMaskIsWritten := by
  unfold Obligations.IrqStaysLowUntilAMaskIsWritten
  intro s t h
  refine ⟨step_ier_changed h, fun hzero hnone => State.irq_of_ier_zero ?_⟩
  by_contra hne
  exact hnone t.ier hne (step_ier_changed h (hzero ▸ hne))

/-- Settles O58: the logged write that changed LCR. -/
theorem dlabIsSetOnlyByALineControlWrite : Obligations.DlabIsSetOnlyByALineControlWrite :=
  fun _ _ h hne => step_lcr_changed h hne

end Sys2Proof.WholeMachine
end

