-- ==== Sys2Proof/Proofs/LatchProtocol.lean ====
section
/-! PROOFS. The steps S1 to S5 (`41_configuration.md` R154), set_divisor_speed, the command of R151,
and the commands on a Port with no device (R141). -/

namespace Sys2Proof.Machine

/-! ### Operand assembly (R95) -/

theorem divisorLow_eq (d : Divisor) : divisorLow d = d.setWidth 8 := by
  apply BitVec.eq_of_toNat_eq
  simp [divisorLow]

theorem divisorLow_eq_mod (d : Divisor) : divisorLow d = BitVec.ofNat 8 (d.toNat % 256) := by
  apply BitVec.eq_of_toNat_eq
  simp [divisorLow]

theorem divisorHigh_eq_div (d : Divisor) : divisorHigh d = BitVec.ofNat 8 (d.toNat / 256) := by
  apply BitVec.eq_of_toNat_eq
  simp [divisorHigh, Nat.shiftRight_eq_div_pow]

theorem divisor_halves (d : Divisor) : divisorHigh d ++ divisorLow d = d := le16_byteOf d

/-! ### Turns of a Busy sequencer -/

theorem seqRun_busy {s : State} {y : Busy} (h : s.seq = .busy y) (n : Nat) :
    seqRun (n + 1) s = Result.andThen (microStep y s) (seqRun n) := by
  rw [seqRun_succ, seqMove_busy h]

theorem seqRun_one {s : State} {y : Busy} (h : s.seq = .busy y) : seqRun 1 s = microStep y s := by
  rw [seqRun_busy h]
  cases microStep y s <;> rfl

/-- The end of a part overwrites the sequencer's record, so it does not tell two states apart that go on
alike. -/
theorem endPart_congr {y y' : Busy} {pc : Label} {s t : State} (hcmd : y.cmd = y'.cmd)
    (h : s.goto y pc = t.goto y' pc) : endPart y pc s = endPart y' pc t := by
  have hdone (r : CmdResult) : (s.goto y pc).done r = (t.goto y' pc).done r := by rw [h]
  unfold endPart
  rw [hcmd, h]
  split
  · rfl
  · exact congrArg Host.Outcome.next (hdone _)

/-! ### S1 to S5 as accesses, for a command with a divisor -/

section
variable {s : State} {y : Busy} {d : Divisor} (hd : y.cmd.divisor? = some d)
include hd

theorem microStep_S1 (hpc : y.pc = .S1) :
    microStep y s = portAccess .read offLineControl 0#8 s fun t =>
      .next (t.goto { y with v := t.readData } .S2) := by
  simp [microStep, hpc, stepS1, hd]

theorem microStep_S2 (hpc : y.pc = .S2) :
    microStep y s = portAccess .write offLineControl (latchOpen y.v) s fun t => .next (t.goto y .S3) := by
  simp [microStep, hpc, stepS2, hd]

theorem microStep_S3 (hpc : y.pc = .S3) :
    microStep y s = portAccess .write offData (divisorLow d) s fun t => .next (t.goto y .S4) := by
  simp [microStep, hpc, stepS3, hd]

theorem microStep_S4 (hpc : y.pc = .S4) :
    microStep y s = portAccess .write offInterrupt (divisorHigh d) s fun t => .next (t.goto y .S5) := by
  simp [microStep, hpc, stepS4, hd]

theorem microStep_S5 (hpc : y.pc = .S5) :
    microStep y s = portAccess .write offLineControl (latchClose y.v) s (endPart y .L1) := by
  simp [microStep, hpc, stepS5, hd]

end

/-! ### The latch protocol at the device -/

/-- Whether the device stands at the Port depends on the Port and the window alone. -/
theorem State.DeviceAtPort.of_place {s t : State} {b : Port} (h : s.DeviceAtPort b)
    (hbase : t.base = s.base := by simp) (hwindow : t.window = s.window := by simp) :
    t.DeviceAtPort b :=
  ⟨hbase.trans h.1, hwindow.trans h.2⟩

/-- As `State.NoDeviceAtPort.congr`, by the field lemmas of the updates. -/
theorem State.NoDeviceAtPort.of_place {s t : State} {b : Port} (h : s.NoDeviceAtPort b)
    (hbase : t.base = s.base := by simp) (hhome : t.home = s.home := by simp)
    (hparams : t.params = s.params := by simp) : t.NoDeviceAtPort b :=
  h.congr hbase hhome hparams

/-- What the five accesses of S1 to S5 do at the device, with nothing in between. -/
def State.latch (s : State) (d : Divisor) : State :=
  { s with
    lcr := latchClose s.lcr, dll := divisorLow d, dlm := divisorHigh d, readData := s.lcr,
    busLog := s.busLog ++
      [logR 3 s.dlab s.lcr, logW 3 s.dlab (latchOpen s.lcr), logW 0 true (divisorLow d),
       logW 1 true (divisorHigh d), logW 3 true (latchClose s.lcr)] }

@[simp] theorem State.latch_base (s : State) (d : Divisor) : (s.latch d).base = s.base := rfl
@[simp] theorem State.latch_window (s : State) (d : Divisor) : (s.latch d).window = s.window := rfl

section
variable {s : State} {y : Busy} {d : Divisor} {b : Port} (hbusy : s.seq = .busy y)
  (hd : y.cmd.divisor? = some d) (hdev : s.DeviceAtPort b) (n : Nat)
include hbusy hd hdev

theorem seqRun_S1 (hpc : y.pc = .S1) :
    seqRun (n + 1) s =
      seqRun n ((s.logRead offLineControl s.lcr).goto { y with v := s.lcr } .S2) := by
  rw [seqRun_busy hbusy, microStep_S1 hd hpc, portAccess_read_lineControl hdev]
  rfl

theorem seqRun_S2 (hpc : y.pc = .S2) :
    seqRun (n + 1) s =
      seqRun n (((s.logWrite offLineControl (latchOpen y.v)).setLcr (latchOpen y.v)).goto y .S3) := by
  rw [seqRun_busy hbusy, microStep_S2 hd hpc, portAccess_write_lineControl hdev]
  rfl

theorem seqRun_S3_open (hpc : y.pc = .S3) (hopen : s.dlab = true) :
    seqRun (n + 1) s =
      seqRun n (((s.logWrite offData (divisorLow d)).setDll (divisorLow d)).goto y .S4) := by
  rw [seqRun_busy hbusy, microStep_S3 hd hpc, portAccess_write_data_open hdev _ _ hopen]
  rfl

theorem seqRun_S4_open (hpc : y.pc = .S4) (hopen : s.dlab = true) :
    seqRun (n + 1) s =
      seqRun n (((s.logWrite offInterrupt (divisorHigh d)).setDlm (divisorHigh d)).goto y .S5) := by
  rw [seqRun_busy hbusy, microStep_S4 hd hpc, portAccess_write_interrupt_open hdev _ _ hopen]
  rfl

theorem seqRun_S5 (hpc : y.pc = .S5) :
    seqRun (n + 1) s =
      Result.andThen
        (endPart y .L1 ((s.logWrite offLineControl (latchClose y.v)).setLcr (latchClose y.v)))
        (seqRun n) := by
  rw [seqRun_busy hbusy, microStep_S5 hd hpc, portAccess_write_lineControl hdev]

/-- From S1 the five turns read LCR, open the latch, write both halves and close the latch; then the
command goes on, or ends. -/
theorem seqRun_latch (hpc : y.pc = .S1) :
    seqRun (n + 5) s = Result.andThen (endPart { y with v := s.lcr } .L1 (s.latch d)) (seqRun n) := by
  have hopen {t : State} (h : t.lcr = latchOpen s.lcr) : t.dlab = true := by
    rw [State.dlab, h, latchOpen_bit7]
  rw [seqRun_S1 hbusy hd hdev _ hpc]
  let y₁ : Busy := { y with v := s.lcr }
  refine (seqRun_S2 (y := { y₁ with pc := .S2 }) rfl hd hdev.of_place _ rfl).trans ?_
  refine (seqRun_S3_open (y := { y₁ with pc := .S3 }) rfl hd hdev.of_place _ rfl (hopen rfl)).trans ?_
  refine (seqRun_S4_open (y := { y₁ with pc := .S4 }) rfl hd hdev.of_place _ rfl (hopen rfl)).trans ?_
  refine (seqRun_S5 (y := { y₁ with pc := .S5 }) rfl hd hdev.of_place _ rfl).trans ?_
  refine congrArg (Result.andThen · (seqRun n)) (endPart_congr rfl ?_)
  simp [State.latch, State.goto, State.logRead, State.logWrite, State.setLcr, State.setDll,
    State.setDlm, y₁, State.dlab, offData, offInterrupt, offLineControl]

end

/-! ### `Instr.initializePort` at the device (R151) -/

/-- What the write at offset 1 does, in either mode. -/
def State.writeMask (s : State) (m : Byte) : State :=
  { s with
    ier := if s.dlab then s.ier else m, dlm := if s.dlab then m else s.dlm,
    busLog := s.busLog ++ [logW 1 s.dlab m] }

@[simp] theorem State.writeMask_base (s : State) (m : Byte) : (s.writeMask m).base = s.base := rfl
@[simp] theorem State.writeMask_window (s : State) (m : Byte) :
    (s.writeMask m).window = s.window := rfl

theorem portAccess_write_interrupt {s : State} {b : Port} (hdev : s.DeviceAtPort b) (m : Byte)
    (f : State → Result) : portAccess .write offInterrupt m s f = f (s.writeMask m) := by
  cases h : s.dlab with
  | false =>
    rw [portAccess_write_interrupt_closed hdev m f h]
    simp [State.writeMask, State.setIer, State.logWrite, h, offInterrupt]
  | true =>
    rw [portAccess_write_interrupt_open hdev m f h]
    simp [State.writeMask, State.setDlm, State.logWrite, h, offInterrupt]

section
variable {s : State} {b : Port} {y : Busy} (hbusy : s.seq = .busy y) (hcmd : y.cmd = .initializePort)
include hbusy hcmd

theorem seqRun_initialize_M1 (hdev : s.DeviceAtPort b) (hpc : y.pc = .M1) (n : Nat) :
    seqRun (n + 1) s = seqRun n ((s.writeMask initMask).goto y .S1) := by
  rw [seqRun_busy hbusy]
  simp only [microStep, hpc, stepM1, hcmd, portAccess_write_interrupt hdev, endPart,
    Result.andThen_next]

theorem seqRun_initialize_L1 (hdev : s.DeviceAtPort b) (hpc : y.pc = .L1) (n : Nat) :
    seqRun (n + 1) s =
      seqRun n (((s.logWrite offLineControl initLine).setLcr initLine).goto y .F1) := by
  rw [seqRun_busy hbusy]
  simp only [microStep, hpc, stepL1, hcmd, portAccess_write_lineControl hdev, endPart,
    Result.andThen_next]

theorem seqRun_initialize_F1 (hdev : s.DeviceAtPort b) (hpc : y.pc = .F1) :
    seqRun 1 s =
      .next ({ (s.logWrite offIdentFifo fifoInit).setFcr fifoInit with init := true }.done
        .nothing) := by
  rw [seqRun_busy hbusy]
  simp only [microStep, hpc, stepF1, hcmd, portAccess_write_fifo hdev, Result.andThen_next,
    seqRun_zero]

end

/-! ### A Port with no device (R141): a write does nothing, a read is a draw -/

section
variable {s : State} {b : Port} (hno : s.NoDeviceAtPort b)
include hno

/-- A micro-step whose access is a write goes on from the state it found. -/
theorem seqRun_write_noDevice {y : Busy} {k : Offset} {d : Byte} {f : State → Result}
    (hbusy : s.seq = .busy y) (hstep : microStep y s = portAccess .write k d s f) (n : Nat) :
    seqRun (n + 1) s = Result.andThen (f s) (seqRun n) := by
  rw [seqRun_busy hbusy, hstep, portAccess_noDevice hno, State.noDevice_write]

/-- S1 to S5 at no device. -/
theorem seqRun_latch_noDevice {y : Busy} {d : Divisor} (hbusy : s.seq = .busy y)
    (hd : y.cmd.divisor? = some d) (hpc : y.pc = .S1) (n : Nat) :
    seqRun (n + 5) s =
      Result.andThen (endPart { y with v := s.upcoming 0 } .L1 (s.noDevice .read)) (seqRun n) := by
  let y₁ : Busy := { y with v := s.upcoming 0 }
  have hnext (pc : Label) : ((s.noDevice .read).goto y₁ pc).NoDeviceAtPort b := hno.of_place
  rw [seqRun_busy hbusy, microStep_S1 hd hpc, portAccess_noDevice hno, Result.andThen_next]
  refine (seqRun_write_noDevice (hnext _) rfl (microStep_S2 (y := { y₁ with pc := .S2 }) hd rfl)
    _).trans ?_
  refine (seqRun_write_noDevice (hnext _) rfl (microStep_S3 (y := { y₁ with pc := .S3 }) hd rfl)
    _).trans ?_
  refine (seqRun_write_noDevice (hnext _) rfl (microStep_S4 (y := { y₁ with pc := .S4 }) hd rfl)
    _).trans ?_
  refine (seqRun_write_noDevice (hnext _) rfl (microStep_S5 (y := { y₁ with pc := .S5 }) hd rfl)
    _).trans ?_
  exact congrArg (Result.andThen · (seqRun n)) (endPart_congr rfl rfl)

section
variable {i : Instr} {cmd : Command} {pc : Label} (hidle : s.seq = .idle)
  (hexec : exec i s = .next (s.start cmd pc))
include hidle hexec

/-- A command of one write at no device stores nothing. -/
theorem runCommand_write_noDevice {k : Offset} {d : Byte}
    (hstep : ∀ t, microStep ⟨cmd, pc, 0#8, 0#8, 0⟩ t =
      portAccess .write k d t fun u => .next (u.done .nothing)) :
    runCommand i 1 s = .next { s with result := .nothing } := by
  have hstart : (s.start cmd pc).NoDeviceAtPort b := hno.of_place
  rw [runCommand_one hexec, hstep, portAccess_noDevice hstart, State.done_eq_of_idle hidle]
  rfl

/-- A command of one status read at no device reports its test of a draw. -/
theorem runCommand_read_noDevice {k : Offset} {d : Byte} {test : Byte → Bool}
    (hstep : ∀ t, microStep ⟨cmd, pc, 0#8, 0#8, 0⟩ t =
      portAccess .read k d t fun u => .next (u.done (.flag (test u.readData)))) :
    runCommand i 1 s = .next { s.noDevice .read with result := .flag (test (s.upcoming 0)) } := by
  have hstart : (s.start cmd pc).NoDeviceAtPort b := hno.of_place
  rw [runCommand_one hexec, hstep, portAccess_noDevice hstart, State.done_eq_of_idle hidle]
  rfl

end

/-- set_divisor_speed at no device draws once. -/
theorem runCommand_setDivisorSpeed_noDevice (hidle : s.seq = .idle) {c : Divisor}
    (hc : c = 1#16 ∨ c = 2#16 ∨ c = 3#16) :
    runCommand (.setDivisorSpeed c) 5 s = .next { s.noDevice .read with result := .nothing } := by
  have hstart : (s.start (.setDivisorSpeed c) .S1).NoDeviceAtPort b := hno.of_place
  rw [runCommand, exec_setDivisorSpeed_listed hidle hno.1 hc, Result.andThen_next,
    seqRun_latch_noDevice hstart (State.start_seq ..) rfl rfl 0]
  simp only [endPart, Result.andThen_next, seqRun_zero, State.done_eq_of_idle hidle]
  rfl

/-- `Instr.initializePort` at no device draws once and sets INIT. -/
theorem runCommand_initialize_noDevice (hidle : s.seq = .idle) :
    runCommand .initializePort 8 s =
      .next { s.noDevice .read with result := .nothing, init := true } := by
  have hexec : exec .initializePort s = .next (s.start .initializePort .M1) :=
    State.onIdlePort_eq hidle hno.1 _
  rw [runCommand, hexec, Result.andThen_next]
  refine (seqRun_write_noDevice hno.of_place (State.start_seq ..) rfl 7).trans ?_
  simp only [endPart, Result.andThen_next]
  refine (seqRun_latch_noDevice hno.of_place (State.goto_seq ..) rfl rfl 2).trans ?_
  simp only [endPart, Result.andThen_next]
  refine (seqRun_write_noDevice hno.of_place (State.goto_seq ..) rfl 1).trans ?_
  simp only [endPart, Result.andThen_next]
  refine (seqRun_one (State.goto_seq ..)).trans ?_
  refine (portAccess_noDevice hno.of_place ..).trans ?_
  rw [State.done_eq_of_idle hidle]
  simp [State.goto, State.start, State.noDevice, State.afterDraws, State.upcoming]

end

end Sys2Proof.Machine

namespace Sys2Proof.Configuration

open Sys2Proof.Machine

/-- Settles O29: an accepted code is at S1, from where the five turns set the latch. -/
theorem setDivisorSpeedRunsTheLatchProtocol : Obligations.SetDivisorSpeedRunsTheLatchProtocol := by
  unfold Obligations.SetDivisorSpeedRunsTheLatchProtocol
  intro s b c hidle hdev hc
  have hhigh : divisorHigh c = 0x00#8 := by rcases hc with rfl | rfl | rfl <;> rfl
  rw [runCommand, exec_setDivisorSpeed_listed hidle hdev.1 hc, Result.andThen_next,
    seqRun_latch (State.start_seq ..) rfl (hdev.start _ _) 0 rfl]
  simp only [endPart, Result.andThen_next, seqRun_zero, State.done_eq_of_idle hidle, State.latch,
    divisorLow_eq, hhigh]
  rfl

/-- Settles O30: the five turns leave the two halves of the divisor in the latch. -/
theorem latchStepsCarryAnySixteenBitDivisor : Obligations.LatchStepsCarryAnySixteenBitDivisor := by
  unfold Obligations.LatchStepsCarryAnySixteenBitDivisor
  intro s b c y hbusy hpc hcmd hdev
  have hd : y.cmd.divisor? = some c := by rw [hcmd]; rfl
  refine ⟨(s.latch c).done .nothing, ?_, rfl, divisorLow_eq_mod c, divisorHigh_eq_div c,
    divisor_halves c, rfl, rfl, rfl, rfl⟩
  rw [seqRun_latch hbusy hd hdev 0 hpc]
  simp only [endPart, hcmd, Result.andThen_next, seqRun_zero]

/-- Settles O31: each of S3, S4 and S5 is one write, directed by DLAB as it is at that moment. -/
theorem interveningLineControlWriteMisdirectsTheDivisor :
    Obligations.InterveningLineControlWriteMisdirectsTheDivisor := by
  unfold Obligations.InterveningLineControlWriteMisdirectsTheDivisor
  intro s b c y hbusy hcmd hdev
  have hd : y.cmd.divisor? = some c := by rw [hcmd]; rfl
  rw [seqMove_busy hbusy]
  refine ⟨fun hpc hclosed => ?_, fun hpc hclosed => ?_, fun hpc => ?_⟩
  · rw [microStep_S3 hd hpc, portAccess_write_data_closed hdev _ _ hclosed, divisorLow_eq]
    exact ⟨_, rfl, rfl, rfl⟩
  · rw [microStep_S4 hd hpc, portAccess_write_interrupt_closed hdev _ _ hclosed, divisorHigh_eq_div]
    exact ⟨_, rfl, rfl, rfl⟩
  · rw [microStep_S5 hd hpc, portAccess_write_lineControl hdev]
    simp only [endPart, hcmd]
    exact ⟨_, rfl, rfl, rfl, rfl⟩

/-- Settles O34: M1, the latch protocol with divisor 3, L1 and F1, one after the other. -/
theorem initializeReachesItsDefinedState : Obligations.InitializeReachesItsDefinedState := by
  unfold Obligations.InitializeReachesItsDefinedState
  intro s b hidle hdev
  have hexec : exec .initializePort s = .next (s.start .initializePort .M1) :=
    State.onIdlePort_eq hidle hdev.1 _
  rw [runCommand, hexec, Result.andThen_next,
    seqRun_initialize_M1 (State.start_seq ..) rfl (hdev.start _ _) rfl,
    seqRun_latch (State.goto_seq ..) rfl hdev.of_place 2 rfl]
  simp only [endPart, Result.andThen_next]
  refine (seqRun_initialize_L1 (State.goto_seq ..) rfl hdev.of_place rfl 1).trans ?_
  refine (seqRun_initialize_F1 (State.goto_seq ..) rfl hdev.of_place rfl).trans ?_
  rw [State.done_eq_of_idle hidle]
  have hlow : divisorLow initDivisor = 0x03#8 := rfl
  have hhigh : divisorHigh initDivisor = 0x00#8 := rfl
  have hline : initLine = 0x07#8 := rfl
  have hmask : initMask = 0x00#8 := rfl
  have hfifo : fifoInit = 0xC7#8 := rfl
  by_cases hmode : s.lcr[7] = true <;>
    simp [hmode, State.writeMask, State.latch, State.goto, State.start, State.logWrite, State.setLcr,
      State.setFcr, State.dlab, hlow, hhigh, hline, hmask, hfifo, latchOpen, latchClose, dlabMask,
      dlabClearMask, offLineControl, offIdentFifo]

/-- Settles O40: every write of a command does nothing and its one read is a draw. -/
theorem commandsWithNoDeviceStoreNothing : Obligations.CommandsWithNoDeviceStoreNothing := by
  unfold Obligations.CommandsWithNoDeviceStoreNothing
  intro s b hidle hno ended drawn
  have gate (k : Result) : s.onIdlePort k = k := State.onIdlePort_eq hidle hno.1 k
  refine ⟨fun o => ?_, fun m => ?_, fun c hc => ?_, fun d st p hp => ?_, ?_, ?_, ?_⟩
  · exact runCommand_write_noDevice hno hidle (gate _) fun _ => rfl
  · exact runCommand_write_noDevice hno hidle (gate _) fun _ => rfl
  · exact runCommand_setDivisorSpeed_noDevice hno hidle hc
  · exact runCommand_write_noDevice hno hidle (exec_setLineOptions_listed hidle hno.1 d st hp)
      fun _ => rfl
  · exact runCommand_initialize_noDevice hno hidle
  · rw [← isDataReady_eq]
    exact runCommand_read_noDevice (i := .packetReceived) (test := isDataReady) hno hidle (gate _)
      fun _ => rfl
  · rw [← isTransmitEmpty_eq]
    exact runCommand_read_noDevice (i := .transmitEmpty) (test := isTransmitEmpty) hno hidle (gate _)
      fun _ => rfl

end Sys2Proof.Configuration
end

