-- ==== Sys2Proof/Proofs/Transmission.lean ====
section
/-! PROOFS. write_char and write_str (`42_status_and_transmit.md` R172, R173), at the device and at a Port
with no device, the two treated alike: `dev` says which. -/

namespace Sys2Proof.Machine

/-! ### Character bytes, the transmit test and the draws ahead -/

theorem charByte_eq (c : CharCode) : charByte c = c.setWidth 8 := by
  apply BitVec.eq_of_toNat_eq
  simp [charByte]

theorem isTransmitEmpty_eq_false_iff (x : Byte) : isTransmitEmpty x = false ↔ x &&& 0x20#8 = 0#8 := by
  simp [isTransmitEmpty, transmitEmptyMask]

theorem isTransmitEmpty_eq_true_iff (x : Byte) : isTransmitEmpty x = true ↔ x &&& 0x20#8 ≠ 0#8 := by
  simp [isTransmitEmpty, transmitEmptyMask]

@[simp] theorem State.length_ahead (s : State) (n : Nat) : (s.ahead n).length = n := by
  simp [State.ahead]

theorem State.ahead_succ (s : State) (n : Nat) : s.ahead (n + 1) = s.ahead n ++ [s.upcoming n] := by
  simp [State.ahead, List.range_succ]

/-- The draws ahead are those up to some draw, and those after it. -/
theorem State.ahead_add (s : State) (m n : Nat) :
    s.ahead (m + n) = s.ahead m ++ (s.afterDraws m).ahead n := by
  simp [State.ahead, List.range_add, Function.comp_def]

theorem State.ahead_cons (s : State) (n : Nat) :
    s.ahead (n + 1) = s.upcoming 0 :: (s.afterDraws 1).ahead n := by
  rw [Nat.add_comm, s.ahead_add]
  rfl

/-! ### A Port with or without its device -/

/-- The device stands at the Port, or none is there. -/
inductive State.Reaches (s : State) (b : Port) : Bool → Prop where
  | device (h : s.DeviceAtPort b) : s.Reaches b true
  | none (h : s.NoDeviceAtPort b) : s.Reaches b false

theorem State.Reaches.of_place {s t : State} {b : Port} {dev : Bool} (h : s.Reaches b dev)
    (hbase : t.base = s.base := by simp) (hhome : t.home = s.home := by simp)
    (hparams : t.params = s.params := by simp) : t.Reaches b dev := by
  cases h with
  | device h =>
    have hwindow : t.window = s.window := by simp only [State.window, hparams, hhome]
    exact .device (h.of_place hbase hwindow)
  | none h => exact .none (h.congr hbase hhome hparams)

theorem State.Reaches.base {s : State} {b : Port} {dev : Bool} (h : s.Reaches b dev) :
    s.base = some b := by
  cases h with
  | device h => exact h.1
  | none h => exact h.1

/-- The state after status reads that were answered with `xs`, which a device logs. -/
def State.polled (s : State) (dev : Bool) (xs : List Byte) : State :=
  { s.afterDraws xs.length with
    readData := xs.getLast?.getD s.readData
    busLog := s.busLog ++ if dev then xs.map (logR 5 s.dlab) else [] }

/-- The state after a write at offset 0, which a device logs and stores by DLAB. -/
def State.sent (s : State) (dev : Bool) (d : Byte) : State :=
  { s with
    dll := if dev && s.dlab then d else s.dll
    txLog := if dev && !s.dlab then s.txLog ++ [d] else s.txLog
    busLog := s.busLog ++ if dev then [logW 0 s.dlab d] else [] }

section
variable (s : State) (dev : Bool) (xs : List Byte) (d : Byte)

@[simp] theorem State.polled_base : (s.polled dev xs).base = s.base := rfl
@[simp] theorem State.polled_home : (s.polled dev xs).home = s.home := rfl
@[simp] theorem State.polled_params : (s.polled dev xs).params = s.params := rfl
@[simp] theorem State.polled_regs : (s.polled dev xs).regs = s.regs := rfl
@[simp] theorem State.polled_txLog : (s.polled dev xs).txLog = s.txLog := rfl
@[simp] theorem State.polled_busLog : (s.polled dev xs).busLog =
    s.busLog ++ if dev then xs.map (logR 5 s.dlab) else [] := rfl
@[simp] theorem State.polled_dlab : (s.polled dev xs).dlab = s.dlab := rfl
@[simp] theorem State.polled_upcoming (k : Nat) :
    (s.polled dev xs).upcoming k = s.upcoming (xs.length + k) :=
  State.upcoming_afterDraws s xs.length k
@[simp] theorem State.polled_ahead (n : Nat) :
    (s.polled dev xs).ahead n = (s.afterDraws xs.length).ahead n := rfl

@[simp] theorem State.sent_base : (s.sent dev d).base = s.base := rfl
@[simp] theorem State.sent_home : (s.sent dev d).home = s.home := rfl
@[simp] theorem State.sent_params : (s.sent dev d).params = s.params := rfl
@[simp] theorem State.sent_ahead (n : Nat) : (s.sent dev d).ahead n = s.ahead n := rfl

/-! The sequencer's record is independent of what an access does, and each record overwrites the last. -/

@[simp] theorem State.goto_ahead (y : Busy) (pc : Label) (n : Nat) :
    (s.goto y pc).ahead n = s.ahead n := rfl
@[simp] theorem State.goto_polled (y : Busy) (pc : Label) :
    (s.goto y pc).polled dev xs = (s.polled dev xs).goto y pc := rfl
@[simp] theorem State.goto_sent (y : Busy) (pc : Label) :
    (s.goto y pc).sent dev d = (s.sent dev d).goto y pc := rfl
@[simp] theorem State.goto_goto (y y' : Busy) (pc pc' : Label) :
    (s.goto y pc).goto y' pc' = s.goto y' pc' := rfl
@[simp] theorem State.goto_done (y : Busy) (pc : Label) (r : CmdResult) :
    (s.goto y pc).done r = s.done r := rfl

@[simp] theorem State.start_ahead (cmd : Command) (pc : Label) (n : Nat) :
    (s.start cmd pc).ahead n = s.ahead n := rfl

/-- A command starts with a record at its first label. -/
theorem State.start_eq_goto (cmd : Command) (pc : Label) :
    s.start cmd pc = s.goto ⟨cmd, pc, 0#8, 0#8, 0⟩ pc := rfl

theorem State.goto_self {y : Busy} {pc : Label} (hbusy : s.seq = .busy y) (hpc : y.pc = pc) :
    s.goto y pc = s := by
  subst hpc
  rw [State.goto, ← hbusy]

@[simp] theorem State.polled_nil : s.polled dev [] = s := by
  cases dev <;> simp [State.polled]

theorem State.polled_append (ys : List Byte) :
    (s.polled dev xs).polled dev ys = s.polled dev (xs ++ ys) := by
  cases dev <;>
    simp [State.polled, State.afterDraws, State.dlab, List.getLast?_append, Nat.add_assoc]

end

section
variable {s : State} {b : Port} {dev : Bool} (h : s.Reaches b dev) (d : Byte) (f : State → Result)
include h

/-- A status read, with or without a device. -/
theorem portAccess_poll :
    portAccess .read offLineStatus d s f = f (s.polled dev [s.upcoming 0]) := by
  cases h with
  | device h => rw [portAccess_read_lineStatus h]; rfl
  | none h => rw [portAccess_noDevice h]; simp [State.polled, State.noDevice]

/-- A write at offset 0, with or without a device. -/
theorem portAccess_send : portAccess .write offData d s f = f (s.sent dev d) := by
  cases h with
  | device h =>
    cases hd : s.dlab with
    | false =>
      rw [portAccess_write_data_closed h d f hd]
      simp [State.sent, State.transmit, State.logWrite, hd, offData]
    | true =>
      rw [portAccess_write_data_open h d f hd]
      simp [State.sent, State.setDll, State.logWrite, hd, offData]
  | none h => rw [portAccess_noDevice h]; simp [State.sent]

end

/-! ### The micro-steps of write_char and write_str -/

section
variable {s : State} {y : Busy} {b : Port} {dev : Bool} {c : CharCode} {cs : List CharCode}
  (hbusy : s.seq = .busy y)
include hbusy

theorem seqRun_W1 (hr : s.Reaches b dev) (hpc : y.pc = .W1) (hc : y.char? = some c) (n : Nat) :
    seqRun (n + 1) s =
      seqRun n ((s.polled dev [s.upcoming 0]).goto { y with s := s.upcoming 0 }
        (if isTransmitEmpty (s.upcoming 0) then .W2 else .W1)) := by
  rw [seqRun_busy hbusy]
  simp only [microStep, hpc, stepW1, hc, portAccess_poll hr, Result.andThen_next]
  rfl

theorem seqRun_W2_writeChar (hr : s.Reaches b dev) (hpc : y.pc = .W2) (hcmd : y.cmd = .writeChar c) :
    seqRun 1 s = .next ((s.sent dev (charByte c)).done .nothing) := by
  rw [seqRun_one hbusy]
  simp only [microStep, hpc, stepW2, hcmd, portAccess_send hr]

theorem seqRun_W2_writeStr (hr : s.Reaches b dev) (hpc : y.pc = .W2) (hcmd : y.cmd = .writeStr cs)
    (hc : cs[y.i]? = some c) (n : Nat) :
    seqRun (n + 1) s =
      seqRun n ((s.sent dev (charByte c)).goto { y with i := y.i + 1 } .X0) := by
  rw [seqRun_busy hbusy]
  simp only [microStep, hpc, stepW2, hcmd, hc, portAccess_send hr, Result.andThen_next]

theorem seqRun_X0_more (hpc : y.pc = .X0) (hcmd : y.cmd = .writeStr cs) (hi : y.i < cs.length)
    (n : Nat) : seqRun (n + 1) s = seqRun n (s.goto y .W1) := by
  have hne : ¬ y.i = cs.length := by omega
  rw [seqRun_busy hbusy]
  simp only [microStep, hpc, stepX0, hcmd, if_neg hne, Result.andThen_next]

theorem seqRun_X0_end (hpc : y.pc = .X0) (hcmd : y.cmd = .writeStr cs) (hi : y.i = cs.length) :
    seqRun 1 s = .next (s.done .nothing) := by
  rw [seqRun_one hbusy]
  simp only [microStep, hpc, stepX0, hcmd, if_pos hi]

end

/-! ### The polls of one character -/

section
variable {b : Port} {dev : Bool} {c : CharCode}

/-- While the answers have bit 5 clear, W1 polls on. -/
theorem seqRun_polls (xs : List Byte) {s : State} {y : Busy} (hbusy : s.seq = .busy y)
    (hr : s.Reaches b dev) (hpc : y.pc = .W1) (hc : y.char? = some c)
    (hahead : s.ahead xs.length = xs) (hxs : ∀ x ∈ xs, isTransmitEmpty x = false) (n : Nat) :
    seqRun (xs.length + n) s =
      seqRun n ((s.polled dev xs).goto { y with s := xs.getLast?.getD y.s } .W1) := by
  induction xs generalizing s y with
  | nil => simp [s.goto_self hbusy hpc]
  | cons x xs ih =>
    obtain ⟨hx, hrest⟩ := List.cons.inj ((s.ahead_cons xs.length).symm.trans hahead)
    have hclear : isTransmitEmpty x = false := hxs x (by simp)
    have hlen : (x :: xs).length + n = (xs.length + n) + 1 := by simp; omega
    rw [hlen, seqRun_W1 hbusy hr hpc hc, hx]
    simp only [hclear, Bool.false_eq_true, if_false]
    refine (ih (y := { y with s := x, pc := .W1 }) (State.goto_seq ..) hr.of_place rfl hc
      (by simpa using hrest) fun z hz => hxs z (by simp [hz])).trans ?_
    simp [State.polled_append, List.getLast?_cons, hpc]

/-- The answer with bit 5 set ends the polls. -/
theorem seqRun_polls_ready {s : State} {y : Busy} {xs : List Byte} {x : Byte}
    (hbusy : s.seq = .busy y) (hr : s.Reaches b dev) (hpc : y.pc = .W1) (hc : y.char? = some c)
    (hahead : s.ahead (xs.length + 1) = xs ++ [x]) (hxs : ∀ x ∈ xs, isTransmitEmpty x = false)
    (hx : isTransmitEmpty x = true) (n : Nat) :
    seqRun (xs.length + 1 + n) s =
      seqRun n ((s.polled dev (xs ++ [x])).goto { y with s := x } .W2) := by
  obtain ⟨hpolls, hlast⟩ := List.append_inj' ((s.ahead_succ xs.length).symm.trans hahead) rfl
  have hnext : s.upcoming xs.length = x := List.singleton_inj.1 hlast
  rw [Nat.add_assoc, seqRun_polls xs hbusy hr hpc hc hpolls hxs, Nat.add_comm 1 n]
  refine (seqRun_W1 (y := { y with s := xs.getLast?.getD y.s, pc := .W1 }) (State.goto_seq ..)
    hr.of_place rfl hc n).trans ?_
  simp [hnext, hx, State.polled_append, hpc]

end

/-! ### write_char -/

theorem ahead_clear {s : State} {n : Nat} (hclear : ∀ k, k < n → s.upcoming k &&& 0x20#8 = 0#8) :
    ∀ x ∈ s.ahead n, isTransmitEmpty x = false := by
  intro x hx
  obtain ⟨k, hk, rfl⟩ := List.mem_map.1 hx
  exact (isTransmitEmpty_eq_false_iff _).2 (hclear k (List.mem_range.1 hk))

section
variable {s : State} {b : Port} {dev : Bool} (hidle : s.seq = .idle) (hr : s.Reaches b dev)
  (c : CharCode) {n : Nat}
include hidle hr

theorem runCommand_writeChar_eq (m : Nat) :
    runCommand (.writeChar c) m s = seqRun m (s.start (.writeChar c) .W1) := by
  have hexec : exec (.writeChar c) s = .next (s.start (.writeChar c) .W1) :=
    State.onIdlePort_eq hidle hr.base _
  rw [runCommand, hexec, Result.andThen_next]

/-- After `n` answers with bit 5 clear write_char polls on. -/
theorem runCommand_writeChar_polls (hclear : ∀ k, k < n → s.upcoming k &&& 0x20#8 = 0#8) :
    ∃ y : Busy, runCommand (.writeChar c) n s = .next ((s.polled dev (s.ahead n)).goto y .W1) := by
  have hrun := seqRun_polls (s.ahead n) (s.start_seq (.writeChar c) .W1) hr.of_place rfl rfl
    (by simp) (ahead_clear hclear) 0
  refine ⟨_, ((runCommand_writeChar_eq hidle hr c n).trans ?_).trans hrun⟩
  simp

/-- The next answer has bit 5 set: two turns later the byte is sent and the command has ended. -/
theorem runCommand_writeChar_ends (hclear : ∀ k, k < n → s.upcoming k &&& 0x20#8 = 0#8)
    (hset : s.upcoming n &&& 0x20#8 ≠ 0#8) :
    runCommand (.writeChar c) (n + 2) s =
      .next (((s.polled dev (s.ahead (n + 1))).sent dev (charByte c)).done .nothing) := by
  have hrun := seqRun_polls_ready (s.start_seq (.writeChar c) .W1) hr.of_place rfl rfl
    (xs := s.ahead n) (by simp [s.ahead_succ]) (ahead_clear hclear)
    ((isTransmitEmpty_eq_true_iff _).2 hset) 1
  rw [runCommand_writeChar_eq hidle hr c, s.ahead_succ]
  rw [State.length_ahead] at hrun
  refine hrun.trans ((seqRun_W2_writeChar (State.goto_seq ..) hr.of_place rfl rfl).trans ?_)
  simp [State.start_eq_goto]

end

/-! ### write_str -/

/-- The answers of the polls of a sequence of characters. -/
def strAnswers (qs : List (CharCode × List Byte × Byte)) : List Byte :=
  qs.flatMap fun q => q.2.1 ++ [q.2.2]

theorem strAnswers_cons (q : CharCode × List Byte × Byte) (qs : List (CharCode × List Byte × Byte)) :
    strAnswers (q :: qs) = (q.2.1 ++ [q.2.2]) ++ strAnswers qs := rfl

/-- The state after characters, each with its polls, at a Port with or without a device. -/
def State.spoken (s : State) (dev : Bool) (qs : List (CharCode × List Byte × Byte)) : State :=
  { s.afterDraws (strAnswers qs).length with
    dll := if dev && s.dlab then ((qs.map fun q => charByte q.1).getLast?).getD s.dll else s.dll
    txLog := if dev && !s.dlab then s.txLog ++ qs.map (fun q => charByte q.1) else s.txLog
    readData := ((qs.map fun q => q.2.2).getLast?).getD s.readData
    busLog := s.busLog ++ if dev then qs.flatMap fun q =>
      (q.2.1 ++ [q.2.2]).map (logR 5 s.dlab) ++ [logW 0 s.dlab (charByte q.1)] else [] }

theorem State.spoken_nil (s : State) (dev : Bool) : s.spoken dev [] = s := by
  simp [State.spoken, strAnswers, State.afterDraws]

/-- The first character is its polls and its byte. -/
theorem State.spoken_cons (s : State) (dev : Bool) (q : CharCode × List Byte × Byte)
    (qs : List (CharCode × List Byte × Byte)) :
    s.spoken dev (q :: qs) =
      ((s.polled dev (q.2.1 ++ [q.2.2])).sent dev (charByte q.1)).spoken dev qs := by
  cases dev <;> cases hd : s.lcr[7] <;>
    simp [State.spoken, State.polled, State.sent, State.afterDraws, State.dlab, hd, strAnswers_cons,
      List.getLast?_cons, Nat.add_assoc, Nat.add_comm 1 (strAnswers qs).length, Option.getD_map]

section
variable {b : Port} {dev : Bool} {cs : List CharCode}

/-- One character of write_str: X0, its polls, its byte. -/
theorem seqRun_char {s : State} {y : Busy} {c : CharCode} {xs : List Byte} {x : Byte}
    (hbusy : s.seq = .busy y) (hr : s.Reaches b dev) (hpc : y.pc = .X0) (hcmd : y.cmd = .writeStr cs)
    (hc : cs[y.i]? = some c) (hahead : s.ahead (xs.length + 1) = xs ++ [x])
    (hxs : ∀ x ∈ xs, isTransmitEmpty x = false) (hx : isTransmitEmpty x = true) (n : Nat) :
    seqRun (xs.length + 3 + n) s =
      seqRun n (((s.polled dev (xs ++ [x])).sent dev (charByte c)).goto
        { y with s := x, i := y.i + 1 } .X0) := by
  obtain ⟨hi, -⟩ := List.getElem?_eq_some_iff.1 hc
  have hchar : ({ y with pc := .W1 } : Busy).char? = some c := by simp only [Busy.char?, hcmd, hc]
  have hturns : xs.length + 3 + n = xs.length + 1 + (n + 1) + 1 := by omega
  rw [hturns, seqRun_X0_more hbusy hpc hcmd hi]
  refine (seqRun_polls_ready (y := { y with pc := .W1 }) (State.goto_seq ..) hr.of_place rfl hchar
    hahead hxs hx (n + 1)).trans ?_
  refine (seqRun_W2_writeStr (y := { y with s := x, pc := .W2 }) (State.goto_seq ..) hr.of_place rfl
    hcmd hc n).trans ?_
  rfl

/-- From X0 write_str sends the characters that are left and ends. -/
theorem seqRun_chars (qs : List (CharCode × List Byte × Byte)) {s : State} {y : Busy}
    (hbusy : s.seq = .busy y) (hr : s.Reaches b dev) (hpc : y.pc = .X0) (hcmd : y.cmd = .writeStr cs)
    (hi : y.i ≤ cs.length) (hleft : cs.drop y.i = qs.map Prod.fst)
    (hahead : s.ahead (strAnswers qs).length = strAnswers qs)
    (hqs : ∀ q ∈ qs, (∀ x ∈ q.2.1, isTransmitEmpty x = false) ∧ isTransmitEmpty q.2.2 = true) :
    seqRun ((strAnswers qs).length + 2 * qs.length + 1) s =
      .next ((s.spoken dev qs).done .nothing) := by
  induction qs generalizing s y with
  | nil =>
    have hend : y.i = cs.length := le_antisymm hi (List.drop_eq_nil_iff.1 hleft)
    rw [State.spoken_nil]
    exact seqRun_X0_end hbusy hpc hcmd hend
  | cons q qs ih =>
    obtain ⟨c, xs, x⟩ := q
    obtain ⟨hxs, hx⟩ := hqs _ List.mem_cons_self
    have hc : cs[y.i]? = some c := by
      rw [← List.head?_drop, hleft]; rfl
    obtain ⟨hlt, -⟩ := List.getElem?_eq_some_iff.1 hc
    have hrest : cs.drop (y.i + 1) = qs.map Prod.fst := by
      rw [← List.tail_drop, hleft]; rfl
    have hlen : (strAnswers ((c, xs, x) :: qs)).length = xs.length + 1 + (strAnswers qs).length := by
      simp [strAnswers_cons]; omega
    rw [hlen, s.ahead_add, strAnswers_cons] at hahead
    obtain ⟨hpolls, hnext⟩ := List.append_inj hahead (by simp)
    have hturns : (strAnswers ((c, xs, x) :: qs)).length + 2 * ((c, xs, x) :: qs).length + 1 =
        xs.length + 3 + ((strAnswers qs).length + 2 * qs.length + 1) := by
      rw [hlen, List.length_cons]; omega
    rw [hturns, seqRun_char hbusy hr hpc hcmd hc hpolls hxs hx]
    refine (ih (y := { y with s := x, i := y.i + 1, pc := .X0 }) (State.goto_seq ..) hr.of_place rfl
      hcmd hlt hrest ?_ fun q hq => hqs q (List.mem_cons_of_mem _ hq)).trans ?_
    · simpa using hnext
    · rw [State.spoken_cons]
      rfl

end

/-! A sequence of characters beside the list of its polls. -/

section
variable {cs : List CharCode} {polls : List (List Byte × Byte)} (hlen : polls.length = cs.length)
include hlen

theorem map_char_zip {α : Type} (f : CharCode → α) :
    (cs.zip polls).map (fun q => f q.1) = cs.map f := by
  have hmap : (cs.zip polls).map (f ∘ Prod.fst) = ((cs.zip polls).map Prod.fst).map f :=
    List.map_map.symm
  rwa [List.map_fst_zip (Nat.le_of_eq hlen.symm)] at hmap

theorem map_poll_zip {α : Type} (f : List Byte × Byte → α) :
    (cs.zip polls).map (fun q => f q.2) = polls.map f := by
  have hmap : (cs.zip polls).map (f ∘ Prod.snd) = ((cs.zip polls).map Prod.snd).map f :=
    List.map_map.symm
  rwa [List.map_snd_zip (Nat.le_of_eq hlen)] at hmap

theorem strAnswers_zip : strAnswers (cs.zip polls) = polls.flatMap fun p => p.1 ++ [p.2] :=
  congrArg List.flatten (map_poll_zip hlen fun p => p.1 ++ [p.2])

/-- write_str at a Port with or without a device. -/
theorem runCommand_writeStr {s : State} {b : Port} {dev : Bool} (hidle : s.seq = .idle)
    (hr : s.Reaches b dev)
    (hpolls : ∀ p ∈ polls, (∀ x ∈ p.1, x &&& 0x20#8 = 0#8) ∧ p.2 &&& 0x20#8 ≠ 0#8)
    (hahead : s.ahead (strAnswers (cs.zip polls)).length = strAnswers (cs.zip polls)) :
    runCommand (.writeStr cs) ((strAnswers (cs.zip polls)).length + 2 * cs.length + 1) s =
      .next ((s.spoken dev (cs.zip polls)).done .nothing) := by
  have hexec : exec (.writeStr cs) s = .next (s.start (.writeStr cs) .X0) :=
    State.onIdlePort_eq hidle hr.base _
  have hqs : ∀ q ∈ cs.zip polls,
      (∀ x ∈ q.2.1, isTransmitEmpty x = false) ∧ isTransmitEmpty q.2.2 = true := by
    intro q hq
    obtain ⟨hclear, hset⟩ := hpolls q.2 (List.of_mem_zip hq).2
    exact ⟨fun x hx => (isTransmitEmpty_eq_false_iff x).2 (hclear x hx),
      (isTransmitEmpty_eq_true_iff _).2 hset⟩
  have hcount : (cs.zip polls).length = cs.length := by simp [hlen]
  have hstart : (s.start (.writeStr cs) .X0).Reaches b dev := hr.of_place
  have hrun := seqRun_chars (cs.zip polls) (State.start_seq ..) hstart rfl rfl (Nat.zero_le _)
    (List.map_fst_zip (Nat.le_of_eq hlen.symm)).symm hahead hqs
  rw [hcount] at hrun
  rw [runCommand, hexec, Result.andThen_next, hrun]
  rfl

end

end Sys2Proof.Machine

namespace Sys2Proof.StatusTransmit

open Sys2Proof.Machine

/-- Settles O37: the polls, then one answer with bit 5 set, then the one write of the low byte. -/
theorem writeCharPollsThenWritesTheLowByte : Obligations.WriteCharPollsThenWritesTheLowByte := by
  unfold Obligations.WriteCharPollsThenWritesTheLowByte
  intro s b c n hidle hdev hclear polls low
  have hr : s.Reaches b true := .device hdev
  have hlog (m : Nat) : (s.ahead m).map (logR 5 s.dlab) = polls m := List.map_map
  have hlast : (s.ahead (n + 1)).getLast?.getD s.readData = s.upcoming n := by simp [s.ahead_succ]
  refine ⟨?_, fun hset => ?_⟩
  · obtain ⟨y, hy⟩ := runCommand_writeChar_polls hidle hr c hclear
    refine ⟨_, _, hy, State.goto_seq .., rfl, by simp, by simp, ?_⟩
    rw [State.goto_busLog, State.polled_busLog, if_pos rfl, hlog]
  · rw [runCommand_writeChar_ends hidle hr c hclear hset, State.done_eq_of_idle hidle, charByte_eq]
    simp only [State.sent, State.polled_dlab]
    simp only [State.polled, hlog, hlast]
    cases s.dlab <;> simp [low, State.afterDraws]

/-- Settles O38: the environment whose next `n` answers are 0x00. -/
theorem writeCharMayPollForAnyNumberOfTurns : Obligations.WriteCharMayPollForAnyNumberOfTurns := by
  unfold Obligations.WriteCharMayPollForAnyNumberOfTurns
  intro s b c n hidle hb hw
  let e : Env := ⟨List.replicate n 0x00#8, 0, 0⟩
  have hclear : ∀ k, k < n → ({ s with env := e } : State).upcoming k &&& 0x20#8 = 0#8 := by
    intro k hk
    simp [State.upcoming, e, hk]
  obtain ⟨dev, hr⟩ : ∃ dev, ({ s with env := e } : State).Reaches b dev := by
    rcases hw with hw | hw
    · exact ⟨true, .device ⟨hb, hw⟩⟩
    · exact ⟨false, .none (noDeviceAtPort_of_window hb hw)⟩
  obtain ⟨y, hy⟩ := runCommand_writeChar_polls (s := { s with env := e }) hidle hr c hclear
  refine ⟨e, _, _, hy, State.goto_seq .., rfl, by simp, ?_⟩
  rw [State.goto_regs, State.polled_regs]
  rfl

/-- Settles O41: as with a device, but nothing is logged and the byte goes nowhere. -/
theorem writeCharWithNoDeviceStoresNothing : Obligations.WriteCharWithNoDeviceStoresNothing := by
  unfold Obligations.WriteCharWithNoDeviceStoresNothing
  intro s b c n hidle hno hclear
  have hr : s.Reaches b false := .none hno
  refine ⟨?_, fun hset => ?_⟩
  · obtain ⟨y, hy⟩ := runCommand_writeChar_polls hidle hr c hclear
    exact ⟨_, _, hy, State.goto_seq .., rfl, by simp, by simp, by simp⟩
  · rw [runCommand_writeChar_ends hidle hr c hclear hset, State.done_eq_of_idle hidle, s.ahead_succ]
    simp [State.polled, State.sent, State.afterDraws]

/-- Settles O39: each character is its polls and its byte, one after the other. -/
theorem writeStrSendsEachCharacterInOrder : Obligations.WriteStrSendsEachCharacterInOrder := by
  unfold Obligations.WriteStrSendsEachCharacterInOrder
  intro s b cs polls hidle hdev hlen hpolls answers hahead
  have hanswers : strAnswers (cs.zip polls) = answers := strAnswers_zip hlen
  have hrun := runCommand_writeStr hlen hidle (.device hdev) hpolls (by rw [hanswers, hahead])
  rw [hanswers] at hrun
  rw [hrun, State.done_eq_of_idle hidle]
  simp only [State.spoken, hanswers, map_char_zip hlen, map_poll_zip hlen, charByte_eq]
  cases s.dlab <;> simp [State.afterDraws]

/-- Settles O42: as with a device, but nothing is logged and no byte goes anywhere. -/
theorem writeStrWithNoDeviceStoresNothing : Obligations.WriteStrWithNoDeviceStoresNothing := by
  unfold Obligations.WriteStrWithNoDeviceStoresNothing
  intro s b cs polls hidle hno hlen hpolls answers hahead
  have hanswers : strAnswers (cs.zip polls) = answers := strAnswers_zip hlen
  have hrun := runCommand_writeStr hlen hidle (.none hno) hpolls (by rw [hanswers, hahead])
  rw [hanswers] at hrun
  rw [hrun, State.done_eq_of_idle hidle]
  simp [State.spoken, hanswers, map_poll_zip hlen, State.afterDraws]

end Sys2Proof.StatusTransmit
end
